-- ==== Sys2Proof/Word.lean ====
section
/-! DEFINITION. The words BFCORE computes with (spec/00_scope.md R6, R8): each an exact-width bit vector,
bit 0 the least significant. -/

namespace Sys2Proof

/-- A command word `{op[3:0], arg[31:0]}` (30_encoding.md R62). -/
abbrev Cmd := BitVec 36

/-- The 32-bit pattern of the hash, `HASH_BITS` (R6, R10, R21). -/
abbrev HashWord := BitVec 32

/-- One character of a key, an unsigned 16-bit code, `CHAR_BITS` (R6, R64). -/
abbrev CharCode := BitVec 16

/-- A bit index into the table, 0..65535, `SUB_BITS` (R6, R40). -/
abbrev BitIndex := BitVec 16

/-- A word address of the table, 0..1023 (R6, R40). -/
abbrev WordAddr := BitVec 10

/-- A bit position within a table word, 0..63 (R41). -/
abbrev BitPos := BitVec 6

/-- A table word, `WORD_BITS` (R6, R29). -/
abbrev TableWord := BitVec 64

/-- The population count, `COUNT_BITS` (R6, R23). -/
abbrev CountWord := BitVec 17

end Sys2Proof
end

