-- ==== Sys2Proof/Syntax.lean ====
section
/-! DEFINITION. The commands of BFCORE (30_encoding.md R65), the ways a command word can be illegal (R66), and the
assembler's lines (R69, R70). -/

namespace Sys2Proof

/-- The ten commands, one per row of the opcode map R65. Each operand has exactly the width of its field
(R63, R64), so every term is a command the block has. -/
inductive Instr where
  /-- NOP (42_system.md R130). -/
  | nop
  /-- HINIT (40_hashing.md R83). -/
  | hinit
  /-- HCHAR c (40_hashing.md R84). -/
  | hchar (c : CharCode)
  /-- HLOAD v (40_hashing.md R85). -/
  | hload (v : HashWord)
  /-- ADD (41_table_ops.md R101). -/
  | add
  /-- TEST (41_table_ops.md R104). -/
  | test
  /-- POPCNT (41_table_ops.md R106). -/
  | popcnt
  /-- RDWORD w (41_table_ops.md R108). -/
  | rdword (w : WordAddr)
  /-- CLEAR (41_table_ops.md R109). -/
  | clear
  /-- SCLR (42_system.md R131). -/
  | sclr
  deriving DecidableEq, Repr

/-- The ten defined opcodes, 0x0 to 0x9 (R65). -/
inductive Opcode where
  | nop | hinit | hchar | hload | add | test | popcnt | rdword | clear | sclr
  deriving DecidableEq, Repr

/-- The four argument formats (R63). -/
inductive Format where
  /-- no operand: all of `arg` reserved -/
  | z
  /-- a character in `arg[15:0]` -/
  | c
  /-- a hash value in `arg[31:0]` -/
  | w
  /-- a word address in `arg[9:0]` -/
  | a
  deriving DecidableEq, Repr

/-- Why a command word is illegal (R66, 60_exceptions.md R141). -/
inductive IllegalCause where
  /-- opcode 0xA to 0xF -/
  | undefinedOpcode
  /-- a defined opcode with a 1 in a reserved bit of its format -/
  | reservedBit
  deriving DecidableEq, Repr

/-- One line of an assembler program with its operand as written, before any range check (R69), and the
pseudo-instructions (R70). A string is the list of its 16-bit code units, first to last; turning text into code
units is the host's (R5). -/
inductive AsmLine where
  | nop
  | hinit
  /-- `HCHAR c`: a number, or the code unit of a character literal -/
  | hchar (c : Nat)
  /-- `HLOAD v`: an unsigned or a signed number -/
  | hload (v : Int)
  | add
  | test
  | popcnt
  | rdword (w : Nat)
  | clear
  | sclr
  /-- `HSTR "s"` -/
  | hstr (s : List CharCode)
  /-- `PUT "s"` -/
  | put (s : List CharCode)
  /-- `GET "s"` -/
  | get (s : List CharCode)
  /-- `CONSTRUCT` -/
  | construct
  /-- `TRUEBITS` -/
  | trueBits
  deriving DecidableEq, Repr

end Sys2Proof
end

