-- ==== Sys2Proof/Config.lean ====
section
/-! DEFINITION. The fixed parameters (00_scope.md R6) and the free values (10_state.md R38;
70_reset_and_hazards.md R176; 93_implementation_defined.md U1, U3). A free value has no body, so no proof can use what it is. -/

namespace Sys2Proof

/-- `HASH_BASE` (R6). -/
def Config.hashBase : Nat := 31

/-- `N_WORDS` (R6). -/
def Config.nWords : Nat := 1024

/-- `WORD_BITS` (R6). -/
def Config.wordBits : Nat := 64

/-- `N_BITS` (R6). -/
def Config.nBits : Nat := 65536

/-- The `hash` output while `BUSY = 1` (R38, log entry 3). -/
opaque Config.busyHash : Nat → BitVec 32

/-- The `idx_lo` output while `BUSY = 1` (R38, log entry 3). -/
opaque Config.busyIdxLo : Nat → BitVec 16

/-- The `idx_hi` output while `BUSY = 1` (R38, log entry 3). -/
opaque Config.busyIdxHi : Nat → BitVec 16

/-- The `result` output while `BUSY = 1` (R38, log entry 3). -/
opaque Config.busyResult : Nat → BitVec 1

/-- The `count` output while `BUSY = 1` (R38, log entry 3). -/
opaque Config.busyCount : Nat → BitVec 17

/-- The `rdata` output while `BUSY = 1` (R38, log entry 3). -/
opaque Config.busyRdata : Nat → BitVec 64

/-- The `ILL` bit of the `status` output while `BUSY = 1` (R38, log entry 3). -/
opaque Config.busyIll : Nat → Bool

/-- The `ICAUSE` field of the `status` output while `BUSY = 1` (R38, log entry 3). -/
opaque Config.busyIcause : Nat → BitVec 2

/-- `H` after the host broke the hold rule (R176, log entry 14). -/
opaque Config.brokenH : Nat → HashWord

/-- `RESULT` after the host broke the hold rule (R176, log entry 14). -/
opaque Config.brokenResult : Nat → Bool

/-- `COUNT` after the host broke the hold rule, within 0..65536 (R23, R176, log entry 14). -/
opaque Config.brokenCount : Nat → Fin (Config.nBits + 1)

/-- `RDATA` after the host broke the hold rule (R176, log entry 14). -/
opaque Config.brokenRdata : Nat → TableWord

/-- `BUSY` after the host broke the hold rule (R176, log entry 14). -/
opaque Config.brokenBusy : Nat → Bool

/-- The cause recorded after the host broke the hold rule, none for `ILL = 0` (R28, R176, log entry 14). -/
opaque Config.brokenCause : Nat → Option IllegalCause

/-- The word of the table at each address after the host broke the hold rule (R176, log entry 14). -/
opaque Config.brokenWord : Nat → WordAddr → TableWord

end Sys2Proof
end

