-- ==== Sys2Proof/WellFormed.lean ====
section
/-! DEFINITION. Well-formedness. A term of `Instr` carries its operands at their exact field widths, so there is no
ill-formed instruction and no check on one; which command WORDS are legal is the decoder's question
(Sys2Proof/Decode.lean). What can be ill formed is an assembler line, whose operand is a number of any size (R69). -/

namespace Sys2Proof

/-- The operand ranges of R69: "An operand out of range is an assembly error, never a silent truncation." -/
def AsmLine.wellFormed : AsmLine → Bool
  | .hchar c => decide (c ≤ 0xFFFF)
  | .hload v => decide (-(2 ^ 31) ≤ v) && decide (v ≤ 0xFFFFFFFF)
  | .rdword w => decide (w ≤ 1023)
  | .nop | .hinit | .add | .test | .popcnt | .clear | .sclr => true
  | .hstr _ | .put _ | .get _ | .construct | .trueBits => true

end Sys2Proof
end

