-- ==== Sys2Proof/Decode.lean ====
section
/-! DEFINITION. The opcode map (30_encoding.md R65), decoding (R66), the encoder (R62, R63) and the assembler's
expansion (R69, R70). -/

namespace Sys2Proof

/-- `op = cmd[35:32]` (R62). -/
def opField (cmd : Cmd) : BitVec 4 := cmd.extractLsb' 32 4

/-- `arg = cmd[31:0]` (R62). -/
def argField (cmd : Cmd) : BitVec 32 := cmd.extractLsb' 0 32

/-- `{op, arg}` (R62). -/
def cmdWord (op : BitVec 4) (arg : BitVec 32) : Cmd := op ++ arg

/-- The op column of R65. -/
def Opcode.code : Opcode → BitVec 4
  | .nop => 0x0
  | .hinit => 0x1
  | .hchar => 0x2
  | .hload => 0x3
  | .add => 0x4
  | .test => 0x5
  | .popcnt => 0x6
  | .rdword => 0x7
  | .clear => 0x8
  | .sclr => 0x9

/-- The format column of R65. -/
def Opcode.format : Opcode → Format
  | .nop | .hinit | .add | .test | .popcnt | .clear | .sclr => .z
  | .hchar => .c
  | .hload => .w
  | .rdword => .a

/-- The match column of R65. -/
def Opcode.matchWord : Opcode → Cmd
  | .nop => 0x000000000
  | .hinit => 0x100000000
  | .hchar => 0x200000000
  | .hload => 0x300000000
  | .add => 0x400000000
  | .test => 0x500000000
  | .popcnt => 0x600000000
  | .rdword => 0x700000000
  | .clear => 0x800000000
  | .sclr => 0x900000000

/-- The mask column of R65. -/
def Opcode.maskWord : Opcode → Cmd
  | .nop => 0xFFFFFFFFF
  | .hinit => 0xFFFFFFFFF
  | .hchar => 0xFFFFF0000
  | .hload => 0xF00000000
  | .add => 0xFFFFFFFFF
  | .test => 0xFFFFFFFFF
  | .popcnt => 0xFFFFFFFFF
  | .rdword => 0xFFFFFFC00
  | .clear => 0xFFFFFFFFF
  | .sclr => 0xFFFFFFFFF

/-- The reserved bits of a format's argument (R63): a 1 in one of them makes the word illegal. -/
def Format.reserved : Format → BitVec 32
  | .z => 0xFFFFFFFF
  | .c => 0xFFFF0000
  | .w => 0x00000000
  | .a => 0xFFFFFC00

/-- The opcode an op field names; 0xA to 0xF name none (R65, R67). -/
def opcodeOf (op : BitVec 4) : Option Opcode :=
  match op.toNat with
  | 0x0 => some .nop
  | 0x1 => some .hinit
  | 0x2 => some .hchar
  | 0x3 => some .hload
  | 0x4 => some .add
  | 0x5 => some .test
  | 0x6 => some .popcnt
  | 0x7 => some .rdword
  | 0x8 => some .clear
  | 0x9 => some .sclr
  | _ => none

/-- Operand assembly (R64): each operand is the low bits of `arg`, not scaled and not extended. -/
def buildInstr (o : Opcode) (arg : BitVec 32) : Instr :=
  match o with
  | .nop => .nop
  | .hinit => .hinit
  | .hchar => .hchar (arg.extractLsb' 0 16)
  | .hload => .hload arg
  | .add => .add
  | .test => .test
  | .popcnt => .popcnt
  | .rdword => .rdword (arg.extractLsb' 0 10)
  | .clear => .clear
  | .sclr => .sclr

/-- The decoder of R66, the same in every state (R68): an undefined opcode is reported whatever the argument
(60_exceptions.md R145), then the reserved bits are checked. -/
def decode (cmd : Cmd) : Except IllegalCause Instr :=
  match opcodeOf (opField cmd) with
  | none => .error .undefinedOpcode
  | some o =>
    if cmd &&& o.maskWord = o.matchWord then .ok (buildInstr o (argField cmd)) else .error .reservedBit

/-- The opcode of a command. -/
def Instr.opcode : Instr → Opcode
  | .nop => .nop
  | .hinit => .hinit
  | .hchar _ => .hchar
  | .hload _ => .hload
  | .add => .add
  | .test => .test
  | .popcnt => .popcnt
  | .rdword _ => .rdword
  | .clear => .clear
  | .sclr => .sclr

/-- The argument of a command: its operand in the low bits, reserved bits 0 (R63). -/
def Instr.arg : Instr → BitVec 32
  | .hchar c => c.setWidth 32
  | .hload v => v
  | .rdword w => w.setWidth 32
  | .nop | .hinit | .add | .test | .popcnt | .clear | .sclr => 0

/-- The command word of a command (R62, R63, R65). -/
def encode (i : Instr) : Cmd := cmdWord i.opcode.code i.arg

/-- The command word that the table's bits are: `cmd[k]` is bit `k` of `w` (R62), bits from `nbits` up being 0. The
command port has 36 wires, so bits 36 and up of a container of whole bytes carry nothing. -/
def tableCmd (nbits w : Nat) : Cmd := BitVec.ofNat 36 (w % 2 ^ nbits)

/-- The command the decoder reads from the table's bits; none where it finds the word illegal, or where a bit above
the 36 of a command word is set. -/
def decodeTableWord (nbits w : Nat) : Option Instr :=
  if w % 2 ^ nbits < 2 ^ 36 then (decode (tableCmd nbits w)).toOption else none

/-- `HSTR "s"`: HINIT, then one HCHAR per character, first to last (R70, R82). -/
def hashCommands (s : List CharCode) : List Instr := .hinit :: s.map .hchar

/-- The commands of a line of R69 or R70 that is within its ranges. -/
def expandLine : AsmLine → List Instr
  | .nop => [.nop]
  | .hinit => [.hinit]
  | .hchar c => [.hchar (BitVec.ofNat 16 c)]
  | .hload v => [.hload (BitVec.ofInt 32 v)]
  | .add => [.add]
  | .test => [.test]
  | .popcnt => [.popcnt]
  | .rdword w => [.rdword (BitVec.ofNat 10 w)]
  | .clear => [.clear]
  | .sclr => [.sclr]
  | .hstr s => hashCommands s
  | .put s => hashCommands s ++ [.add]
  | .get s => hashCommands s ++ [.test]
  | .construct => [.clear]
  | .trueBits => [.popcnt]

/-- The assembler: an operand out of range is an error (none), never a truncation (R69). -/
def assemble (l : AsmLine) : Option (List Instr) :=
  if l.wellFormed then some (expandLine l) else none

end Sys2Proof
end

