-- ==== Sys2Proof/Machine/State.lean ====
section
/-! DEFINITION. The state of BFCORE as plain data (spec/10_state.md, 00_scope.md R13) and the state after reset, `S0`
(70_reset_and_hazards.md R163). -/

namespace Sys2Proof.Machine

/-- The bit table `T` (10_state.md R29, 20_memory.md R40): pairs of a word address and the 64-bit word there. The
table has no bytes (R43), so a cell is a word. An unlisted word reads as 0, its value after reset (R161). -/
abbrev Memory := List (Nat × TableWord)

/-- Word addresses strictly rise from `lo`, stay below `N_WORDS`, and no zero word is listed. -/
def Memory.wfFrom : Nat → Memory → Bool
  | _, [] => true
  | lo, (a, v) :: rest => decide (lo ≤ a) && decide (a < Config.nWords) && decide (v ≠ 0) && Memory.wfFrom (a + 1) rest

/-- The one canonical form of a table, so that equal tables are equal lists. -/
def Memory.wf (t : Memory) : Bool := Memory.wfFrom 0 t

/-- What reaches the block at one rising edge of `clk`: the input ports of 30_encoding.md R60, and whether the work the
block has in progress (a command, or the reset sweep) is complete at that edge. The last is open in the spec (R26, R174,
U4): it is data here, so every latency is covered. -/
structure Edge where
  /-- `rst` -/
  rst : Bool
  /-- `cmd_valid` -/
  valid : Bool
  /-- `cmd_op` -/
  op : BitVec 4
  /-- `cmd_arg` -/
  arg : BitVec 32
  /-- the block's work in progress is complete at this edge -/
  done : Bool
  deriving DecidableEq, Repr

/-- The state of the block, and below it the three fields that are the model's own. -/
structure State where
  /-- `H`, the hash accumulator (R21). -/
  h : HashWord
  /-- `RESULT`, the answer of the last TEST (R22). -/
  result : Bool
  /-- `COUNT`, the answer of the last POPCNT (R23). -/
  count : CountWord
  /-- `RDATA`, the word read by the last RDWORD (R24). -/
  rdata : TableWord
  /-- `STATUS.BUSY` (R25, R26). -/
  busy : Bool
  /-- `STATUS.ILL` (R25, R27). -/
  ill : Bool
  /-- `STATUS.ICAUSE` (R25, R28). -/
  icause : BitVec 2
  /-- `T`, the bit table (R29). -/
  table : Memory
  /-- What the coming edges bring, oldest first (log entry 1). -/
  edges : List Edge
  /-- The word the host presented at the last edge and the block did not accept (R176, log entry 2). -/
  held : Option Cmd
  /-- The counter the free values are applied to (R38, log entry 3). -/
  draw : Nat
  deriving DecidableEq, Repr

/-- Why the machine stops: for no reason. No command fails (60_exceptions.md R140), nothing traps (R143), every word
address exists (20_memory.md R44), and a host that breaks its duties meets free values (R38, R176). -/
inductive Fault
  deriving DecidableEq, Repr

/-- Why an instruction has no meaning. -/
inductive Refusal where
  /-- An instruction not modelled yet, named by its mnemonic. Raised by no arm of `exec`: every command has its meaning.
  Safe: the model would stop where the hardware goes on. -/
  | notModelled (mnemonic : String)
  deriving DecidableEq, Repr

/-- `S0`, the state after reset (R35, R163): registers 0, table all zero, `BUSY = 0`. Nothing is on the command port. -/
def State.reset : State :=
  { h := 0, result := false, count := 0, rdata := 0, busy := false, ill := false, icause := 0, table := [],
    edges := [], held := none, draw := 0 }

end Sys2Proof.Machine
end

