-- ==== Sys2Proof/Machine/Flags.lean ====
section
/-! DEFINITION. The flags (10_state.md R25, R28, R33): the codes of ICAUSE and the layout of STATUS. RESULT and the
status fields are the only flags; no command writes one as a side effect. -/

namespace Sys2Proof.Machine

/-- The code ICAUSE records for a cause (R28, 60_exceptions.md R141). -/
def causeCode : IllegalCause → BitVec 2
  | .undefinedOpcode => 0b01
  | .reservedBit => 0b10

/-- The value of ICAUSE for the cause recorded, `0b00` for none (R28). -/
def causeField : Option IllegalCause → BitVec 2
  | none => 0b00
  | some k => causeCode k

/-- The layout of STATUS (R25): `BUSY` bit 0, `ILL` bit 1, `ICAUSE` bits 3:2, bits 31:4 hardwired to 0. -/
def packStatus (busy ill : Bool) (icause : BitVec 2) : BitVec 32 :=
  0#28 ++ icause ++ BitVec.ofBool ill ++ BitVec.ofBool busy

end Sys2Proof.Machine
end

