-- ==== Sys2Proof/Machine/Operands.lean ====
section
/-! DEFINITION. The operands of the commands: the character's extension (30_encoding.md R64), the two bit indices of a
hash (40_hashing.md R86 to R88), and the word, position and mask of an index (20_memory.md R41, R42; 41_table_ops.md R100). -/

namespace Sys2Proof.Machine

/-- `zext_32(c)`: a character enters the hash as an unsigned code (R64). -/
def charWord (c : CharCode) : HashWord := c.setWidth 32

/-- `idx_lo = H & 0x0000FFFF` (R86). -/
def idxLo (h : HashWord) : BitIndex := (h &&& 0x0000FFFF#32).extractLsb' 0 16

/-- `idx_hi = (H & 0xFFFF0000) >>> 16`, a logical shift (R87). -/
def idxHi (h : HashWord) : BitIndex := ((h &&& 0xFFFF0000#32) >>> 16).extractLsb' 0 16

/-- The word of a bit index, `i[15:6]` (R41). -/
def wordOf (i : BitIndex) : WordAddr := i.extractLsb' 6 10

/-- The position of a bit index within its word, `i[5:0]` (R41). -/
def posOf (i : BitIndex) : BitPos := i.extractLsb' 0 6

/-- `bitmask(p) = zext_64(1) << p` (R100). -/
def bitmask (p : BitPos) : TableWord := 1#64 <<< p.toNat

end Sys2Proof.Machine
end

