-- ==== Sys2Proof/Machine/Ops.lean ====
section
/-! DEFINITION. The operations over the table and the registers: the array's ports (20_memory.md R46), the dual bit-set
and bit-test (41_table_ops.md R101, R104), the population count (R106), and the block's one exceptional event with its
clearing (42_system.md R131, R132). -/

namespace Sys2Proof.Machine

/-- The word listed at address `k`, 0 where none is (R161). -/
def lookupWord : Memory → Nat → TableWord
  | [], _ => 0
  | (a, v) :: rest, k => if a = k then v else lookupWord rest k

/-- Lists `v` at address `k`, keeping the canonical form: a zero word is not listed. -/
def putWord : Memory → Nat → TableWord → Memory
  | [], k, v => if v = 0 then [] else [(k, v)]
  | (a, u) :: rest, k, v =>
    if k < a then (if v = 0 then (a, u) :: rest else (k, v) :: (a, u) :: rest)
    else if k = a then (if v = 0 then rest else (k, v) :: rest)
    else (a, u) :: putWord rest k v

/-- Word read, `ArrRead(w) = MemRead(w, 64)` (R46). -/
def arrRead (t : Memory) (w : WordAddr) : TableWord := lookupWord t w.toNat

/-- Word write, `ArrWrite(w, v) = MemWrite(w, 64, v)` (R46). -/
def arrWrite (t : Memory) (w : WordAddr) (v : TableWord) : Memory := putWord t w.toNat v

/-- Per-word set, `ArrSet(w, m)` (R46). -/
def arrSet (t : Memory) (w : WordAddr) (m : TableWord) : Memory := arrWrite t w (arrRead t w ||| m)

/-- Per-word clear, `ArrClear(w)` (R46). -/
def arrClear (t : Memory) (w : WordAddr) : Memory := arrWrite t w 0

/-- The all-zero table: what the sweep of CLEAR or of reset leaves (41_table_ops.md R109, 70_reset_and_hazards.md R161). -/
def zeroTable : Memory := []

/-- The canonical list of the words `f` gives the `n` addresses from `lo` on. -/
def wordsFrom (f : WordAddr → TableWord) : Nat → Nat → Memory
  | _, 0 => []
  | lo, n + 1 =>
    if f (BitVec.ofNat 10 lo) = 0 then wordsFrom f (lo + 1) n
    else (lo, f (BitVec.ofNat 10 lo)) :: wordsFrom f (lo + 1) n

/-- The table with the word `f w` at every address `w`. -/
def tableOfWords (f : WordAddr → TableWord) : Memory := wordsFrom f 0 Config.nWords

/-- `Tbit(i) = T[i[15:6]][i[5:0]]` (R100). -/
def tableBit (t : Memory) (i : BitIndex) : Bool := (arrRead t (wordOf i)).getLsbD (posOf i).toNat

/-- The dual bit-set of ADD (R101): one merged update when both indices fall in one word (R102), else two. -/
def dualSet (t : Memory) (h : HashWord) : Memory :=
  let wl := wordOf (idxLo h)
  let wh := wordOf (idxHi h)
  let ml := bitmask (posOf (idxLo h))
  let mh := bitmask (posOf (idxHi h))
  if wl = wh then arrWrite t wl (arrRead t wl ||| ml ||| mh)
  else arrSet (arrSet t wl ml) wh mh

/-- The dual bit-test of TEST (R104): both bits read from one table state. -/
def dualTest (t : Memory) (h : HashWord) : Bool := tableBit t (idxLo h) && tableBit t (idxHi h)

/-- The 1 bits among the low `k` binary digits of `n`. -/
def onesBelow : Nat → Nat → Nat
  | 0, _ => 0
  | k + 1, n => if n = 0 then 0 else n % 2 + onesBelow k (n / 2)

/-- `popcount(v)`, the number of 1 bits of a word (00_scope.md R8). -/
def popcount (v : TableWord) : Nat := onesBelow Config.wordBits v.toNat

/-- The running sum of POPCNT's loop after words 0 to `k - 1` (R106). -/
def popcountBelow (t : Memory) : Nat → Nat
  | 0 => 0
  | k + 1 => popcountBelow t k + popcount (lookupWord t k)

/-- The number of 1 bits of the whole table (R106). -/
def tablePopcount (t : Memory) : Nat := popcountBelow t Config.nWords

/-- `raise IllegalCommand(cause)` (R132, R142): the block's one exceptional event. It saves no other state, transfers no
control and changes no mode (60_exceptions.md R143); the first cause is kept (R28). -/
def raiseIllegal (cause : IllegalCause) (s : State) : State :=
  { s with icause := if s.ill then s.icause else causeCode cause, ill := true }

/-- The clearing of the illegal-command status (R131): nothing returns from the event (R144), its status is cleared. -/
def clearIllegal (s : State) : State := { s with ill := false, icause := 0 }

end Sys2Proof.Machine
end

