-- ==== Sys2Proof/Machine/Hashing.lean ====
section
/-! DEFINITION. The meanings of HINIT, HCHAR and HLOAD (spec/40_hashing.md). -/

namespace Sys2Proof.Machine

/-- One step of the hash: `(31 * H + zext_32(c)) mod 2^32`, the wrap silent (R81, R84). -/
def hashStep (h : HashWord) (c : CharCode) : HashWord := BitVec.ofNat 32 Config.hashBase * h + charWord c

/-- HINIT (R83). -/
def execHinit (s : State) : Host.Outcome State Fault Refusal := .next { s with h := 0 }

/-- HCHAR c (R84). -/
def execHchar (c : CharCode) (s : State) : Host.Outcome State Fault Refusal := .next { s with h := hashStep s.h c }

/-- HLOAD v (R85). -/
def execHload (v : HashWord) (s : State) : Host.Outcome State Fault Refusal := .next { s with h := v }

end Sys2Proof.Machine
end

