-- ==== Sys2Proof/Machine/System.lean ====
section
/-! DEFINITION. The meanings of NOP and SCLR (spec/42_system.md). -/

namespace Sys2Proof.Machine

/-- NOP (R130): any state, the same state. -/
def execNop (s : State) : Host.Outcome State Fault Refusal := .next s

/-- SCLR (R131). -/
def execSclr (s : State) : Host.Outcome State Fault Refusal := .next (clearIllegal s)

end Sys2Proof.Machine
end

