-- ==== Sys2Proof/Machine/TableOps.lean ====
section
/-! DEFINITION. The meanings of ADD, TEST, POPCNT, RDWORD and CLEAR (spec/41_table_ops.md). -/

namespace Sys2Proof.Machine

/-- ADD (R101): both bit sets are one atomic update (20_memory.md R51). -/
def execAdd (s : State) : Host.Outcome State Fault Refusal := .next { s with table := dualSet s.table s.h }

/-- TEST (R104). -/
def execTest (s : State) : Host.Outcome State Fault Refusal := .next { s with result := dualTest s.table s.h }

/-- POPCNT (R106). -/
def execPopcnt (s : State) : Host.Outcome State Fault Refusal :=
  .next { s with count := BitVec.ofNat 17 (tablePopcount s.table) }

/-- RDWORD w (R108). -/
def execRdword (w : WordAddr) (s : State) : Host.Outcome State Fault Refusal :=
  .next { s with rdata := arrRead s.table w }

/-- CLEAR (R109): the table alone. -/
def execClear (s : State) : Host.Outcome State Fault Refusal := .next { s with table := zeroTable }

end Sys2Proof.Machine
end

