-- ==== Sys2Proof/Machine/Dispatch.lean ====
section
/-! DEFINITION. One arm per command: each calls its meaning. -/

namespace Sys2Proof.Machine

def exec (i : Instr) (s : State) : Host.Outcome State Fault Refusal :=
  match i with
  | .nop => Sys2Proof.Machine.execNop s
  | .hinit => Sys2Proof.Machine.execHinit s
  | .hchar c => Sys2Proof.Machine.execHchar c s
  | .hload v => Sys2Proof.Machine.execHload v s
  | .add => Sys2Proof.Machine.execAdd s
  | .test => Sys2Proof.Machine.execTest s
  | .popcnt => Sys2Proof.Machine.execPopcnt s
  | .rdword w => Sys2Proof.Machine.execRdword w s
  | .clear => Sys2Proof.Machine.execClear s
  | .sclr => Sys2Proof.Machine.execSclr s

end Sys2Proof.Machine
end

