-- ==== Sys2Proof/Machine/Accept.lean ====
section
/-! DEFINITION. What an accepted command word does, legal or illegal (30_encoding.md R61, R66; 42_system.md R132). -/

namespace Sys2Proof.Machine

/-- Every accepted word is executed exactly once (R61): a legal one is its command, an illegal one raises its cause. -/
def execCmd (cmd : Cmd) (s : State) : Host.Outcome State Fault Refusal :=
  match decode cmd with
  | .ok i => exec i s
  | .error cause => .next (raiseIllegal cause s)

end Sys2Proof.Machine
end

