-- ==== Sys2Proof/Machine/Ports.lean ====
section
/-! DEFINITION. The ports: what is on the input ports at the next edge and what that edge does (30_encoding.md R60, R61;
70_reset_and_hazards.md R160, R168, R176), and the output ports (10_state.md R30, R38). -/

namespace Sys2Proof.Machine

/-- An edge at which the host presents a command word; `done` says whether the block's work is complete at it. -/
def presentEdge (cmd : Cmd) (done : Bool) : Edge :=
  { rst := false, valid := true, op := opField cmd, arg := argField cmd, done := done }

/-- An edge at which the host presents nothing (42_system.md R130: an idle port is `cmd_valid = 0`). -/
def idleEdge (done : Bool) : Edge := { rst := false, valid := false, op := 0, arg := 0, done := done }

/-- The command word on the port at an edge, `{cmd_op, cmd_arg}` (R61). -/
def edgeCmd (e : Edge) : Cmd := cmdWord e.op e.arg

/-- What the next rising edge samples. Past the end of `edges` the host starts nothing new: it holds a word it must
still hold (R176), and is idle otherwise. -/
def pins (s : State) : Edge :=
  match s.edges with
  | e :: _ => e
  | [] => match s.held with
    | some w => presentEdge w true
    | none => idleEdge true

/-- `BUSY` as the host sees it: 1 while `rst` is asserted too (R25, R26). -/
def busyNow (s : State) : Bool := s.busy || (pins s).rst

/-- `cmd_ready = ~rst & ~BUSY` (R30, R168). -/
def cmdReady (s : State) : Bool := !(pins s).rst && !s.busy

/-- The host broke the rule of R176: the word it presented at the last edge was not accepted and is not on the port,
valid and unchanged, at this edge. -/
def holdViolated (s : State) : Bool :=
  match s.held with
  | none => false
  | some w => !((pins s).valid && edgeCmd (pins s) == w)

/-- What one rising edge does at the port. -/
inductive EdgeEvent where
  /-- reset is taken (R160) -/
  | reset
  /-- a command word is accepted (R61) -/
  | accept (cmd : Cmd)
  /-- nothing is accepted and the host broke the hold rule (R176) -/
  | holdBroken
  /-- nothing is accepted (R61) -/
  | wait
  deriving DecidableEq, Repr

/-- Reset has priority (R145, R160); a command is accepted at an edge with `rst = 0`, `cmd_valid = 1` and
`cmd_ready = 1`, and it is the word present at that edge (R61, R176). -/
def edgeEvent (s : State) : EdgeEvent :=
  if (pins s).rst then .reset
  else if (pins s).valid && cmdReady s then .accept (edgeCmd (pins s))
  else if holdViolated s then .holdBroken
  else .wait

/-- The word presented at an edge, if one is (R60). -/
def edgeWord (e : Edge) : Option Cmd := if e.valid then some (edgeCmd e) else none

/-- The word that stays presented and not accepted after an edge that accepts nothing (R61, R176). -/
def presented (s : State) : Option Cmd := edgeWord (pins s)

/-- Reset at an edge (R160): the registers take the reset values and `BUSY = 1`. The sweep's zeros are put into the
table at once: nothing can observe the table before `BUSY` falls (R163). -/
def resetEdge (s : State) : State :=
  { State.reset with busy := true, edges := s.edges.tail, held := presented s, draw := s.draw + 1 }

/-- An edge that accepts nothing: the work in progress is complete at it or goes on (R26, R162). -/
def waitEdge (s : State) : State :=
  { s with busy := s.busy && !(pins s).done, edges := s.edges.tail, held := presented s, draw := s.draw + 1 }

/-- An edge that accepts nothing and at which the host broke the hold rule. What the block does is unspecified (R176,
U3): every register, `BUSY` and the table are free values within the limits of R23 and R28, and the block goes on. The
word now on the port, if any, is the one the host must hold from here on. -/
def brokenEdge (s : State) : State :=
  { h := Config.brokenH s.draw
    result := Config.brokenResult s.draw
    count := BitVec.ofNat 17 (Config.brokenCount s.draw).val
    rdata := Config.brokenRdata s.draw
    busy := Config.brokenBusy s.draw
    ill := (Config.brokenCause s.draw).isSome
    icause := causeField (Config.brokenCause s.draw)
    table := tableOfWords (Config.brokenWord s.draw)
    edges := s.edges.tail
    held := presented s
    draw := s.draw + 1 }

/-- The port's side of an edge that accepts a command: nothing stays held, and `BUSY` is 1 after it unless the command
completes within the accepting cycle (R26, R168). The command's effects are then put into this state at once: nothing
can observe them before `BUSY` falls (20_memory.md R51). -/
def acceptEdge (s : State) : State :=
  { s with busy := !(pins s).done, edges := s.edges.tail, held := none, draw := s.draw + 1 }

/-- The output ports (R30). -/
structure Outputs where
  cmdReady : Bool
  status : BitVec 32
  hash : BitVec 32
  idxLo : BitVec 16
  idxHi : BitVec 16
  result : BitVec 1
  count : BitVec 17
  rdata : BitVec 64
  deriving DecidableEq, Repr

/-- What the host reads on the output ports (R30). While `BUSY = 1` every value but `cmd_ready`, the BUSY bit and the
hardwired bits of `status` is a free value (R38, U1). -/
def outputs (s : State) : Outputs :=
  if busyNow s then
    { cmdReady := cmdReady s
      status := packStatus true (Config.busyIll s.draw) (Config.busyIcause s.draw)
      hash := Config.busyHash s.draw
      idxLo := Config.busyIdxLo s.draw
      idxHi := Config.busyIdxHi s.draw
      result := Config.busyResult s.draw
      count := Config.busyCount s.draw
      rdata := Config.busyRdata s.draw }
  else
    { cmdReady := cmdReady s
      status := packStatus false s.ill s.icause
      hash := s.h
      idxLo := idxLo s.h
      idxHi := idxHi s.h
      result := BitVec.ofBool s.result
      count := s.count
      rdata := s.rdata }

/-- The command word on the command port at the next edge, with the block ready for it. -/
def placeCmd (cmd : Cmd) (s : State) : State := { s with busy := false, edges := presentEdge cmd true :: s.edges }

end Sys2Proof.Machine
end

