-- ==== Sys2Proof/Machine/Step.lean ====
section
/-! DEFINITION. One step: one rising edge of `clk` (30_encoding.md R60, R61). -/

namespace Sys2Proof.Machine

/-- One rising edge: reset (R160), an accepted command word (R61), an edge that accepts nothing with the hold rule
broken (R176), or kept (R61). -/
def step (s : State) : Host.Outcome State Fault Refusal :=
  match edgeEvent s with
  | .reset => .next (resetEdge s)
  | .accept cmd => execCmd cmd (acceptEdge s)
  | .holdBroken => .next (brokenEdge s)
  | .wait => .next (waitEdge s)

/-- `s` with the command word on the command port, the block ready for it, ahead of what the coming edges bring. -/
def State.withFetchWord (s : State) (nbits w : Nat) : State := placeCmd (tableCmd nbits w) s

end Sys2Proof.Machine
end

