-- ==== Sys2Proof/Safety.lean ====
section
/-! DEFINITION. The terms the statements use: the invariant of a run, sequences of commands, the spec's own closed forms
of the hash and of the fill, what the block keeps between edges, and a host that keeps the hold rule. -/

namespace Sys2Proof.Machine

/-- What holds in every state a run reaches: the table is in its canonical form, `ILL = 0` if and only if
`ICAUSE = 0b00`, `ICAUSE` is never `0b11` (10_state.md R28), and `COUNT` is at most 65536 (R23). -/
def State.Inv (s : State) : Prop :=
  Memory.wf s.table = true ∧ (s.ill = false ↔ s.icause = 0b00#2) ∧ s.icause ≠ 0b11#2 ∧ s.count.toNat ≤ Config.nBits

/-- Two states hold the same registers and table: everything of the block but the port and `BUSY`. -/
def SameBlock (s t : State) : Prop :=
  s.h = t.h ∧ s.result = t.result ∧ s.count = t.count ∧ s.rdata = t.rdata ∧ s.ill = t.ill ∧ s.icause = t.icause ∧
    s.table = t.table

/-- Commands one after another, each from the state the one before it left (20_memory.md R52). -/
def execAll : List Instr → State → Host.Outcome State Fault Refusal
  | [], s => .next s
  | i :: rest, s =>
    match exec i s with
    | .next t => execAll rest t
    | .fault r => .fault r
    | .refused r => .refused r

/-- Accepted command words, legal or not, one after another (R52). -/
def execCmds : List Cmd → State → Host.Outcome State Fault Refusal
  | [], s => .next s
  | c :: rest, s =>
    match execCmd c s with
    | .next t => execCmds rest t
    | .fault r => .fault r
    | .refused r => .refused r

/-- The words the block accepts at the next `k` edges, in order (30_encoding.md R61). -/
def acceptedCmds : Nat → State → List Cmd
  | 0, _ => []
  | k + 1, s =>
    let later := match step s with
      | .next t => acceptedCmds k t
      | .fault _ => []
      | .refused _ => []
    match edgeEvent s with
    | .accept c => c :: later
    | .reset => later
    | .holdBroken => later
    | .wait => later

/-- The host keeps its duty at the next edge: a word it must hold is on the port, valid and unchanged (R176). -/
def HostHolds (s : State) : Prop := ∀ w, s.held = some w → edgeWord (pins s) = some w

/-- `P` holds of the state before each of the next `k` edges. -/
def Along (P : State → Prop) : Nat → State → Prop
  | 0, _ => True
  | k + 1, s => P s ∧ ∀ t, step s = .next t → Along P k t

/-- The words the host comes to present at the next `k` edges, in order: a word it already holds is not presented
anew (R176). -/
def presentedCmds : Nat → State → List Cmd
  | 0, _ => []
  | k + 1, s =>
    let later := match step s with
      | .next t => presentedCmds k t
      | .fault _ => []
      | .refused _ => []
    match s.held with
    | some _ => later
    | none => (edgeWord (pins s)).toList ++ later

/-- Over edges of which none accepts, the host holds every word it presents; `w` is the word it holds at first. -/
def HoldsThrough : Option Cmd → List Edge → Prop
  | _, [] => True
  | w, e :: rest => (∀ c, w = some c → edgeWord e = some c) ∧ HoldsThrough (edgeWord e) rest

/-- One word of a host's program, and the edges before the one that accepts it: first `BUSY` stays 1 from the work
before, for `quiet` edges with nothing on the port and `waits` edges with the word already presented; a word not yet
presented then comes after `pause` more edges with nothing on the port. -/
structure Turn where
  word : Cmd
  quiet : Nat
  waits : Nat
  pause : Nat
  deriving DecidableEq, Repr

/-- For how many edges `BUSY` stays 1 before the next word of the program is accepted; `n` after the last. -/
def busyBefore (n : Nat) : List Turn → Nat
  | [] => n
  | u :: _ => u.quiet + u.waits

/-- Edges at which `BUSY` is 1, the last of them the one at which the work in progress is complete. -/
def busyEdges : List Edge → List Edge
  | [] => []
  | [e] => [{ e with done := true }]
  | e :: f :: rest => { e with done := false } :: busyEdges (f :: rest)

/-- The edges of a host's program; after its last word `BUSY` stays 1 for `n` edges. -/
def driveEdges (n : Nat) : List Turn → List Edge
  | [] => busyEdges (List.replicate n (idleEdge false))
  | u :: rest =>
    busyEdges (List.replicate u.quiet (idleEdge false) ++ List.replicate u.waits (presentEdge u.word false)) ++
      (if u.waits = 0 then List.replicate u.pause (idleEdge false) else []) ++
      presentEdge u.word (decide (busyBefore n rest = 0)) :: driveEdges n rest

/-- The hash of a key in closed form (40_hashing.md R80): the sum of `c_k * 31^(n-1-k)`, modulo 2^32. -/
def keyHash (s : List CharCode) : HashWord :=
  BitVec.ofNat 32 (∑ k ∈ Finset.range s.length, (s.getD k 0).toNat * 31 ^ (s.length - 1 - k))

/-- How many of the 65,536 table bits are 1 (41_table_ops.md R106). -/
def tableOnes (t : Memory) : Nat :=
  ((Finset.range Config.nBits).filter fun i => tableBit t (BitVec.ofNat 16 i) = true).card

end Sys2Proof.Machine
end

