-- ==== Sys2Proof/Certificates/Slice0/Obligations.lean ====
section
/-! DEFINITION. The statements for the provers. Each docstring names the rule of spec/ it formalises. -/

open Sys2Proof Sys2Proof.Machine

/-! ## Encoding -/

/-- 30_encoding.md R62 to R65: every command, with every value of its operand, is decoded from its own word. -/
def Obligations.DecodeOfEncodeIsTheCommand : Prop := ∀ i : Instr, decode (encode i) = .ok i

/-- 30_encoding.md R65: a legal word is the word of the command it decodes to, so no two words are one command. -/
def Obligations.EncodeOfDecodeIsTheWord : Prop := ∀ (c : Cmd) (i : Instr), decode c = .ok i → encode i = c

/-- 30_encoding.md R65: the columns op, format, match and mask of the map; a word is a listed command if and only if
`cmd & mask = match`; exactly one row matches a legal word, and a word no row matches is illegal. -/
def Obligations.OpcodeMapIsExact : Prop :=
  (∀ o : Opcode, (o.code, o.format, o.matchWord, o.maskWord) =
    match o with
    | .nop => (0x0#4, Format.z, 0x000000000#36, 0xFFFFFFFFF#36)
    | .hinit => (0x1#4, Format.z, 0x100000000#36, 0xFFFFFFFFF#36)
    | .hchar => (0x2#4, Format.c, 0x200000000#36, 0xFFFFF0000#36)
    | .hload => (0x3#4, Format.w, 0x300000000#36, 0xF00000000#36)
    | .add => (0x4#4, Format.z, 0x400000000#36, 0xFFFFFFFFF#36)
    | .test => (0x5#4, Format.z, 0x500000000#36, 0xFFFFFFFFF#36)
    | .popcnt => (0x6#4, Format.z, 0x600000000#36, 0xFFFFFFFFF#36)
    | .rdword => (0x7#4, Format.a, 0x700000000#36, 0xFFFFFFC00#36)
    | .clear => (0x8#4, Format.z, 0x800000000#36, 0xFFFFFFFFF#36)
    | .sclr => (0x9#4, Format.z, 0x900000000#36, 0xFFFFFFFFF#36)) ∧
  ∀ c : Cmd,
    (∀ o : Opcode, c &&& o.maskWord = o.matchWord ↔ ∃ i, decode c = .ok i ∧ i.opcode = o) ∧
    (∀ o o' : Opcode, c &&& o.maskWord = o.matchWord → c &&& o'.maskWord = o'.matchWord → o = o') ∧
    ((∀ o : Opcode, c &&& o.maskWord ≠ o.matchWord) ↔ ∃ k, decode c = .error k)

/-- 30_encoding.md R66: opcodes 0xA to 0xF are undefined whatever the argument; a defined opcode with a 1 in a
reserved bit of its format is illegal with the other cause; any other word is its row's command; the codes the two
causes record. -/
def Obligations.DecodeByOpcodeThenReservedBits : Prop :=
  (causeCode .undefinedOpcode = 0b01 ∧ causeCode .reservedBit = 0b10) ∧
  ∀ c : Cmd,
    (0xA ≤ (c.extractLsb' 32 4).toNat → decode c = .error .undefinedOpcode) ∧
    ((c.extractLsb' 32 4).toNat < 0xA → ∃ o : Opcode, o.code = c.extractLsb' 32 4 ∧
      (c &&& o.maskWord ≠ o.matchWord ↔ c.extractLsb' 0 32 &&& o.format.reserved ≠ 0) ∧
      (c &&& o.maskWord ≠ o.matchWord → decode c = .error .reservedBit) ∧
      (c &&& o.maskWord = o.matchWord → ∃ i, decode c = .ok i ∧ i.opcode = o))

/-- 30_encoding.md R63, R64: the character is `arg[15:0]` and enters the hash zero-extended, the hash value is
`arg`, the word address is `arg[9:0]`, not scaled; a format Z word has no operand. -/
def Obligations.OperandFields : Prop :=
  (∀ c : CharCode, decode (cmdWord 0x2 (0#16 ++ c)) = .ok (.hchar c) ∧ (charWord c).toNat = c.toNat) ∧
  (∀ v : HashWord, decode (cmdWord 0x3 v) = .ok (.hload v)) ∧
  (∀ w : WordAddr, decode (cmdWord 0x7 (0#22 ++ w)) = .ok (.rdword w)) ∧
  (decode (cmdWord 0x0 0) = .ok .nop ∧ decode (cmdWord 0x1 0) = .ok .hinit ∧ decode (cmdWord 0x4 0) = .ok .add ∧
    decode (cmdWord 0x5 0) = .ok .test ∧ decode (cmdWord 0x6 0) = .ok .popcnt ∧ decode (cmdWord 0x8 0) = .ok .clear ∧
    decode (cmdWord 0x9 0) = .ok .sclr)

/-- 30_encoding.md section 4 (R71, which the spec marks as derived from R62 and R65): the listed words, legal and
illegal. -/
def Obligations.EncodingExamples : Prop :=
  decode 0x000000000 = .ok .nop ∧ decode 0x100000000 = .ok .hinit ∧ decode 0x200000065 = .ok (.hchar 0x0065) ∧
  decode 0x20000FFFF = .ok (.hchar 0xFFFF) ∧ decode 0x38C20B6FD = .ok (.hload 0x8C20B6FD) ∧
  decode 0x400000000 = .ok .add ∧ decode 0x500000000 = .ok .test ∧ decode 0x600000000 = .ok .popcnt ∧
  decode 0x7000002DB = .ok (.rdword 731) ∧ decode 0x800000000 = .ok .clear ∧ decode 0x900000000 = .ok .sclr ∧
  decode 0xA00000000 = .error .undefinedOpcode ∧ decode 0x200010065 = .error .reservedBit ∧
  decode 0x700000400 = .error .reservedBit ∧ decode 0x400000001 = .error .reservedBit

/-- 30_encoding.md R69: a line is assembled if and only if its operand is in range, and then to the command with
that operand (a signed HLOAD operand modulo 2^32). -/
def Obligations.AssemblerRanges : Prop :=
  (∀ c : Nat, (c ≤ 0xFFFF → ∃ x : CharCode, x.toNat = c ∧ assemble (.hchar c) = some [.hchar x]) ∧
    (0xFFFF < c → assemble (.hchar c) = none)) ∧
  (∀ v : Int, (-(2 ^ 31) ≤ v ∧ v ≤ 0xFFFFFFFF →
      ∃ x : HashWord, (x.toNat : Int) = v % 2 ^ 32 ∧ assemble (.hload v) = some [.hload x]) ∧
    (v < -(2 ^ 31) ∨ 0xFFFFFFFF < v → assemble (.hload v) = none)) ∧
  (∀ w : Nat, (w ≤ 1023 → ∃ x : WordAddr, x.toNat = w ∧ assemble (.rdword w) = some [.rdword x]) ∧
    (1023 < w → assemble (.rdword w) = none))

/-- 30_encoding.md R70: the expansions of the pseudo-instructions. -/
def Obligations.PseudoInstructionExpansions : Prop :=
  ∀ s : List CharCode,
    assemble (.hstr s) = some (.hinit :: s.map Instr.hchar) ∧
    assemble (.put s) = some (.hinit :: s.map Instr.hchar ++ [.add]) ∧
    assemble (.get s) = some (.hinit :: s.map Instr.hchar ++ [.test]) ∧
    assemble .construct = some [.clear] ∧ assemble .trueBits = some [.popcnt] ∧ assemble (.hstr []) = some [.hinit]

/-! ## Reset -/

/-- 10_state.md R35: the reset values; `BUSY` is 1 from a reset edge on and 0 once the sweep has ended. -/
def Obligations.ResetValues : Prop :=
  State.reset.h = 0x00000000#32 ∧ State.reset.result = false ∧ State.reset.count = 0#17 ∧
  State.reset.rdata = 0x0000000000000000#64 ∧ State.reset.ill = false ∧ State.reset.icause = 0b00#2 ∧
  State.reset.busy = false ∧ (∀ w : WordAddr, arrRead State.reset.table w = 0) ∧ ∀ s : State, (resetEdge s).busy = true

/-- The invariant holds at reset (10_state.md R23, R28, R35). Its clause that the table is canonical is about how the
model writes the table down, the model's choice, log entry 7. -/
def Obligations.ResetMeetsInvariant : Prop := State.reset.Inv

/-- 70_reset_and_hazards.md R160: at every edge with `rst = 1`, from every state, the registers take the reset
values, `BUSY` becomes 1, nothing is accepted and what was in progress is abandoned. -/
def Obligations.ResetEdgeTakesPriority : Prop :=
  ∀ s : State, (pins s).rst = true →
    (∀ c, edgeEvent s ≠ .accept c) ∧
    ∃ t, step s = .next t ∧ t.h = 0 ∧ t.result = false ∧ t.count = 0 ∧ t.rdata = 0 ∧ t.ill = false ∧ t.icause = 0 ∧
      t.busy = true ∧ t.edges = s.edges.tail

/-- 70_reset_and_hazards.md R162 and R164 (which the spec marks as derived from R160 and R162): reset in the middle
of anything, and a sweep of any length after it, whether or not reset is asserted again meanwhile, ends in `S0`. The
host may present a word at the reset edge or at any edge of the sweep, and then holds it (R175, R176). -/
def Obligations.ResetAndSweepEndInS0 : Prop :=
  ∀ (s : State) (e last : Edge) (sweep rest : List Edge),
    s.edges = e :: (sweep ++ last :: rest) →
    e.rst = true → (∀ x ∈ sweep, x.rst = true ∨ x.done = false) → last.rst = false → last.done = true →
    HoldsThrough (edgeWord e) (sweep ++ [last]) →
    ∃ t, Host.Core.run core (sweep.length + 2) s = .next t ∧ SameBlock t State.reset ∧ t.busy = false ∧
      t.held = edgeWord last ∧ t.edges = rest

/-! ## The commands -/

/-- 42_system.md R130: NOP leaves any state as it is; a nonzero argument makes the word illegal. -/
def Obligations.NopChangesNothing : Prop :=
  ∀ s : State, exec .nop s = .next s ∧ execCmd 0x000000000 s = .next s ∧
    ∀ arg : BitVec 32, arg ≠ 0 → execCmd (cmdWord 0x0 arg) s = .next (raiseIllegal .reservedBit s)

/-- 40_hashing.md R83: HINIT clears `H` and nothing else; a nonzero argument makes the word illegal. -/
def Obligations.HinitClearsTheHash : Prop :=
  ∀ s : State, exec .hinit s = .next { s with h := 0x00000000 } ∧
    execCmd 0x100000000 s = .next { s with h := 0x00000000 } ∧
    ∀ arg : BitVec 32, arg ≠ 0 → execCmd (cmdWord 0x1 arg) s = .next (raiseIllegal .reservedBit s)

/-- 40_hashing.md R84: `H <- (31 * H + zext_32(c)) mod 2^32` and nothing else; `arg[31:16] != 0` makes the word
illegal. -/
def Obligations.HcharIsOneHashStep : Prop :=
  ∀ (s : State) (c : CharCode), ∃ v : HashWord,
    v.toNat = (31 * s.h.toNat + c.toNat) % 2 ^ 32 ∧ exec (.hchar c) s = .next { s with h := v } ∧
    execCmd (cmdWord 0x2 (0#16 ++ c)) s = .next { s with h := v } ∧
    ∀ arg : BitVec 32, arg.extractLsb' 16 16 ≠ 0 → execCmd (cmdWord 0x2 arg) s = .next (raiseIllegal .reservedBit s)

/-- 40_hashing.md R85: `H <- v` and nothing else, every word with opcode 0x3 is legal, and a later HCHAR continues
from `v`. -/
def Obligations.HloadWritesTheHash : Prop :=
  ∀ (s : State) (v : HashWord), exec (.hload v) s = .next { s with h := v } ∧
    execCmd (cmdWord 0x3 v) s = .next { s with h := v } ∧
    ∀ c : CharCode, ∃ u : HashWord, u.toNat = (31 * v.toNat + c.toNat) % 2 ^ 32 ∧
      execAll [.hload v, .hchar c] s = .next { s with h := u }

/-- 41_table_ops.md R101: for every word, `T'[w] = T[w] | (w == wl ? bitmask(pl) : 0) | (w == wh ? bitmask(ph) :
0)`, and nothing else changes; a nonzero argument makes the word illegal. -/
def Obligations.AddSetsTwoBits : Prop :=
  ∀ s : State, Memory.wf s.table = true →
    (∃ t, exec .add s = .next t ∧ execCmd 0x400000000 s = .next t ∧ t = { s with table := t.table } ∧
      ∀ w : WordAddr, arrRead t.table w = arrRead s.table w |||
        (if w = s.h.extractLsb' 6 10 then 1#64 <<< (s.h.extractLsb' 0 6).toNat else 0) |||
        (if w = s.h.extractLsb' 22 10 then 1#64 <<< (s.h.extractLsb' 16 6).toNat else 0)) ∧
    ∀ arg : BitVec 32, arg ≠ 0 → execCmd (cmdWord 0x4 arg) s = .next (raiseIllegal .reservedBit s)

/-- 41_table_ops.md R102 (which the spec marks as derived from R101): both bits in one word merge into one update;
when `lo = hi` the table gains at most one 1 bit; the rule's examples on an empty table. -/
def Obligations.AddMergesOneWord : Prop :=
  (∀ s : State, Memory.wf s.table = true → s.h.extractLsb' 22 10 = s.h.extractLsb' 6 10 →
    ∃ t, exec .add s = .next t ∧
      arrRead t.table (s.h.extractLsb' 6 10) = arrRead s.table (s.h.extractLsb' 6 10) |||
        1#64 <<< (s.h.extractLsb' 0 6).toNat ||| 1#64 <<< (s.h.extractLsb' 16 6).toNat ∧
      (s.h.extractLsb' 16 16 = s.h.extractLsb' 0 16 → tableOnes t.table ≤ tableOnes s.table + 1)) ∧
  (∀ s : State, s.table = zeroTable → ∃ a b c,
    exec .add { s with h := 0x00050003 } = .next a ∧ arrRead a.table 0 = 0x0000000000000028 ∧
    exec .add { s with h := 0x00070007 } = .next b ∧ arrRead b.table 0 = 0x0000000000000080 ∧
    exec .add { s with h := 0xFFFFFFFF } = .next c ∧ arrRead c.table 1023 = 0x8000000000000000)

/-- 41_table_ops.md R103 (which the spec marks as derived from R101): a second ADD with the same `H` changes
nothing. -/
def Obligations.AddIsIdempotent : Prop :=
  ∀ s : State, Memory.wf s.table = true → ∃ t, exec .add s = .next t ∧ exec .add t = .next t

/-- 41_table_ops.md R104: `RESULT <- Tbit(lo) & Tbit(hi)` and nothing else; 0 on an all-zero table for every `H`; a
nonzero argument makes the word illegal. -/
def Obligations.TestAnswersBothBits : Prop :=
  ∀ s : State, ∃ r : Bool,
    (r = true ↔
      (arrRead s.table (s.h.extractLsb' 6 10)).getLsbD (s.h.extractLsb' 0 6).toNat = true ∧
      (arrRead s.table (s.h.extractLsb' 22 10)).getLsbD (s.h.extractLsb' 16 6).toNat = true) ∧
    exec .test s = .next { s with result := r } ∧ execCmd 0x500000000 s = .next { s with result := r } ∧
    ((∀ w, arrRead s.table w = 0) → r = false) ∧
    ∀ arg : BitVec 32, arg ≠ 0 → execCmd (cmdWord 0x5 arg) s = .next (raiseIllegal .reservedBit s)

/-- 41_table_ops.md R106: `COUNT` is the sum over the 1,024 words of their numbers of 1 bits, exact, 0 on an
all-zero table and 0x10000 on an all-one table, and nothing else changes; a nonzero argument makes the word illegal.
-/
def Obligations.PopcntCountsTheTable : Prop :=
  ∀ s : State, ∃ v : CountWord,
    v.toNat = (∑ w ∈ Finset.range 1024,
      ((Finset.range 64).filter fun p => (arrRead s.table (BitVec.ofNat 10 w)).getLsbD p = true).card) ∧
    v.toNat ≤ 65536 ∧
    ((∀ w, arrRead s.table w = 0) → v = 0) ∧ ((∀ w, arrRead s.table w = BitVec.allOnes 64) → v = 0x10000) ∧
    exec .popcnt s = .next { s with count := v } ∧ execCmd 0x600000000 s = .next { s with count := v } ∧
    ∀ arg : BitVec 32, arg ≠ 0 → execCmd (cmdWord 0x6 arg) s = .next (raiseIllegal .reservedBit s)

/-- 41_table_ops.md R108: `RDATA <- T[w]`, `RDATA[p] = Tbit(64*w + p)`, and nothing else; `arg[31:10] != 0` makes
the word illegal. -/
def Obligations.RdwordReadsOneWord : Prop :=
  ∀ (s : State) (w : WordAddr), ∃ v : TableWord,
    v = arrRead s.table w ∧ (∀ p < 64, v.getLsbD p = tableBit s.table (BitVec.ofNat 16 (64 * w.toNat + p))) ∧
    exec (.rdword w) s = .next { s with rdata := v } ∧
    execCmd (cmdWord 0x7 (0#22 ++ w)) s = .next { s with rdata := v } ∧
    ∀ arg : BitVec 32, arg.extractLsb' 10 22 ≠ 0 → execCmd (cmdWord 0x7 arg) s = .next (raiseIllegal .reservedBit s)

/-- 41_table_ops.md R109: every word becomes 0 and nothing else changes, so a POPCNT after it gives 0; a nonzero
argument makes the word illegal. -/
def Obligations.ClearEmptiesTheTable : Prop :=
  ∀ s : State,
    (∃ t, exec .clear s = .next t ∧ execCmd 0x800000000 s = .next t ∧ t = { s with table := t.table } ∧
      (∀ w : WordAddr, arrRead t.table w = 0) ∧ exec .popcnt t = .next { t with count := 0 }) ∧
    ∀ arg : BitVec 32, arg ≠ 0 → execCmd (cmdWord 0x8 arg) s = .next (raiseIllegal .reservedBit s)

/-- 41_table_ops.md R109, 70_reset_and_hazards.md R162: clearing every word through the per-word clear port, in any
order, leaves the all-zero table. -/
def Obligations.SweepInAnyOrderLeavesZero : Prop :=
  ∀ (t : Memory) (order : List WordAddr), Memory.wf t = true → (∀ w, w ∈ order) → order.foldl arrClear t = zeroTable

/-- 42_system.md R131: `ILL <- 0; ICAUSE <- 0b00` and nothing else; with a nonzero argument it is itself illegal and
does not clear. -/
def Obligations.SclrClearsTheStatus : Prop :=
  ∀ s : State, exec .sclr s = .next { s with ill := false, icause := 0b00 } ∧
    execCmd 0x900000000 s = .next { s with ill := false, icause := 0b00 } ∧
    (∀ arg : BitVec 32, arg ≠ 0 → execCmd (cmdWord 0x9 arg) s = .next (raiseIllegal .reservedBit s) ∧
      (raiseIllegal .reservedBit s).ill = true)

/-- 42_system.md R132, 60_exceptions.md R142: an illegal word sets `ILL`, records the first cause, and changes
nothing else. -/
def Obligations.IllegalWordRaises : Prop :=
  ∀ (c : Cmd) (k : IllegalCause) (s : State), decode c = .error k →
    execCmd c s = .next { s with
      ill := true
      icause := if s.ill = false then (if 0xA ≤ (c.extractLsb' 32 4).toNat then 0b01 else 0b10) else s.icause }

/-- 10_state.md R36 (which the spec marks as derived from the commands' rules): which command writes which register
and the table, with the value, and what stays. -/
def Obligations.WriteMatrix : Prop :=
  ∀ (i : Instr) (s : State), Memory.wf s.table = true → ∃ t, exec i s = .next t ∧
    t.h.toNat = (match i with
      | .hinit => 0
      | .hchar c => (31 * s.h.toNat + c.toNat) % 2 ^ 32
      | .hload v => v.toNat
      | _ => s.h.toNat) ∧
    t.result = (match i with
      | .test => tableBit s.table (s.h.extractLsb' 0 16) && tableBit s.table (s.h.extractLsb' 16 16)
      | _ => s.result) ∧
    t.count.toNat = (match i with
      | .popcnt => tableOnes s.table
      | _ => s.count.toNat) ∧
    t.rdata = (match i with
      | .rdword w => arrRead s.table w
      | _ => s.rdata) ∧
    (t.ill, t.icause) = (match i with
      | .sclr => (false, 0b00)
      | _ => (s.ill, s.icause)) ∧
    (∀ j : BitIndex, tableBit t.table j = match i with
      | .add => tableBit s.table j || decide (j = s.h.extractLsb' 0 16) || decide (j = s.h.extractLsb' 16 16)
      | .clear => false
      | _ => tableBit s.table j) ∧
    t.busy = s.busy ∧ t.edges = s.edges ∧ t.held = s.held ∧ t.draw = s.draw

/-- 60_exceptions.md R140: no legal command fails or raises anything, for any state and operand. -/
def Obligations.NoLegalCommandFails : Prop :=
  ∀ (i : Instr) (s : State), ∃ t, exec i s = .next t ∧ execCmd (encode i) s = .next t ∧
    (t.ill = true → s.ill = true) ∧ (t.icause ≠ 0 → t.icause = s.icause)

/-! ## Indices and the hash -/

/-- 40_hashing.md R86, R87: the two sub-hashes are the low and the high half of the hash, the high one by a logical
shift. -/
def Obligations.SubHashesAreTheHalves : Prop :=
  ∀ h : HashWord,
    idxLo h = h.extractLsb' 0 16 ∧ (idxLo h).toNat = h.toNat % 65536 ∧
    idxHi h = h.extractLsb' 16 16 ∧ (idxHi h).toNat = h.toNat / 65536

/-- 20_memory.md R41 and 40_hashing.md R88 (which the spec marks as derived from R41, R86, R87): the word is `idx /
64`, the position `idx % 64`. -/
def Obligations.IndexSelectsWordAndPosition : Prop :=
  (∀ i : BitIndex, (wordOf i).toNat = i.toNat / 64 ∧ (posOf i).toNat = i.toNat % 64 ∧
    i.toNat = 64 * (wordOf i).toNat + (posOf i).toNat) ∧
  ∀ h : HashWord,
    wordOf (idxLo h) = h.extractLsb' 6 10 ∧ posOf (idxLo h) = h.extractLsb' 0 6 ∧
    wordOf (idxHi h) = h.extractLsb' 22 10 ∧ posOf (idxHi h) = h.extractLsb' 16 6

/-- 40_hashing.md R89 (which the spec marks as derived from R86 and R87): when the two indices are one bit, when
they are two bits of one word, and that every hash below 65536 has `idx_hi = 0`, so an ADD with it sets bit 0 of
word 0. -/
def Obligations.IndexCornerCases : Prop :=
  (∀ h : HashWord, idxLo h = idxHi h ↔ h.extractLsb' 16 16 = h.extractLsb' 0 16) ∧
  (∀ h : HashWord, (wordOf (idxLo h) = wordOf (idxHi h) ∧ posOf (idxLo h) ≠ posOf (idxHi h)) ↔
    (h.extractLsb' 22 10 = h.extractLsb' 6 10 ∧ h.extractLsb' 16 6 ≠ h.extractLsb' 0 6)) ∧
  ∀ s : State, Memory.wf s.table = true → s.h.toNat < 65536 →
    idxHi s.h = 0 ∧ ∃ t, exec .add s = .next t ∧ (arrRead t.table 0).getLsbD 0 = true

/-- 40_hashing.md R92 (which the spec marks as derived from R84): the hash step needs no multiplier. -/
def Obligations.HashStepByShiftAndSubtract : Prop :=
  ∀ (s : State) (c : CharCode), exec (.hchar c) s = .next { s with h := (s.h <<< 5) - s.h + c.setWidth 32 }

/-- 40_hashing.md R80, with R81 and R82 (which the spec marks as derived): HINIT and one HCHAR per character, first to
last, leave `H` at the hash of the string, the polynomial modulo 2^32, and change nothing else. -/
def Obligations.CharactersGiveThePolynomial : Prop :=
  ∀ (k : List CharCode) (s : State), ∃ v : HashWord,
    v.toNat = (∑ j ∈ Finset.range k.length, (k.getD j 0).toNat * 31 ^ (k.length - 1 - j)) % 2 ^ 32 ∧
    execAll (.hinit :: k.map Instr.hchar) s = .next { s with h := v }

/-- 41_table_ops.md R110 (which the spec marks as derived): HLOAD of a key's hash stands for the HINIT and HCHAR
sequence, whatever follows. -/
def Obligations.HloadStandsForTheKey : Prop :=
  ∀ (k : List CharCode) (is : List Instr) (s : State),
    execAll (hashCommands k ++ is) s = execAll (.hload (keyHash k) :: is) s

/-! ## The filter -/

/-- 20_memory.md R48 (which the spec marks as derived from R101 and R36): at no step but reset and CLEAR does a
table bit go from 1 to 0. An edge at which the host broke the hold rule is apart: R176 leaves it unspecified. -/
def Obligations.TableBitsNeverClear : Prop :=
  ∀ s t : State, Memory.wf s.table = true → step s = .next t →
    edgeEvent s ≠ .reset → edgeEvent s ≠ .accept 0x800000000 → edgeEvent s ≠ .holdBroken →
    ∀ w : WordAddr, arrRead t.table w &&& arrRead s.table w = arrRead s.table w

/-- 41_table_ops.md R105 (which the spec marks as derived from R48, R101, R104): after an ADD with `H = v`, whatever
commands but CLEAR follow, a TEST with `H = v` gives 1; and a TEST may give 1 for a hash never added. -/
def Obligations.NoFalseNegatives : Prop :=
  (∀ (s u : State) (is : List Instr), Memory.wf s.table = true → Instr.clear ∉ is →
    execAll (.add :: is) s = .next u → u.h = s.h → exec .test u = .next { u with result := true }) ∧
  ∃ (vs : List HashWord) (v : HashWord), v ∉ vs ∧ ∀ s : State, ∃ t,
    execAll (.clear :: (vs.flatMap fun x => [.hload x, .add]) ++ [.hload v, .test]) s = .next t ∧ t.result = true

/-- 41_table_ops.md R105 and R110 (which the spec marks as derived): for all strings, after `add(s)`,
`mightContain(s)` returns true, with any commands but CLEAR between. -/
def Obligations.AddedKeyMightBeContained : Prop :=
  ∀ (s : State) (k : List CharCode) (is : List Instr), Memory.wf s.table = true → Instr.clear ∉ is →
    ∃ t, execAll (expandLine (.put k) ++ is ++ expandLine (.get k)) s = .next t ∧ t.result = true

/-- 41_table_ops.md R107 (which the spec marks as derived): one ADD raises the next POPCNT result by 0, 1 or 2, and
on an all-zero table by exactly 1 when `lo = hi` and by 2 otherwise. -/
def Obligations.FillPerAdd : Prop :=
  ∀ s : State, Memory.wf s.table = true → ∃ a b c,
    exec .popcnt s = .next a ∧ exec .add s = .next b ∧ exec .popcnt b = .next c ∧
    a.count.toNat ≤ c.count.toNat ∧ c.count.toNat ≤ a.count.toNat + 2 ∧
    ((∀ w, arrRead s.table w = 0) →
      c.count.toNat = if s.h.extractLsb' 0 16 = s.h.extractLsb' 16 16 then 1 else 2)

/-- 41_table_ops.md R107 (which the spec marks as derived): between initialisations POPCNT never decreases. -/
def Obligations.FillNeverDecreases : Prop :=
  ∀ (s u : State) (is : List Instr), Memory.wf s.table = true → Instr.clear ∉ is → execAll is s = .next u →
    ∃ a b, exec .popcnt s = .next a ∧ exec .popcnt u = .next b ∧ a.count.toNat ≤ b.count.toNat

/-- 41_table_ops.md R107 (which the spec marks as derived): after ADD commands with `k >= 1` hash values since
initialisation, `1 <= COUNT <= 2k`. -/
def Obligations.FillOfManyAdds : Prop :=
  ∀ (s : State) (vs : List HashWord), vs ≠ [] → ∃ t,
    execAll (.clear :: (vs.flatMap fun v => [.hload v, .add]) ++ [.popcnt]) s = .next t ∧
    1 ≤ t.count.toNat ∧ t.count.toNat ≤ 2 * vs.length

/-! ## The port and the whole machine -/

/-- A word accepted at an edge that decodes to a command: the step is that command, after the port's side of the
edge; an illegal word raises its cause there (30_encoding.md R61, R66). That the effects stand at the accepting edge, and
that `BUSY` after it is what the field `done` says, is the model's choice, log entry 4 (20_memory.md R51 and 10_state.md
R26 only allow it); how the edges are held is log entry 1. -/
def Obligations.StepRunsTheDecodedCommand : Prop :=
  ∀ (s : State) (c : Cmd), edgeEvent s = .accept c →
    (∀ i, decode c = .ok i → step s =
      exec i { s with busy := !(pins s).done, edges := s.edges.tail, held := none, draw := s.draw + 1 }) ∧
    (∀ k, decode c = .error k → step s = .next
      (raiseIllegal k { s with busy := !(pins s).done, edges := s.edges.tail, held := none, draw := s.draw + 1 }))

/-- A word placed on the command port is the word the next step runs, whatever the state (30_encoding.md R61).
Placing it is the model's own operation, log entry 10. -/
def Obligations.PlacedWordRunsNext : Prop :=
  ∀ (s : State) (w : Nat), w < 2 ^ 36 → ∀ nbits, 36 ≤ nbits →
    edgeEvent (s.withFetchWord nbits w) = .accept (BitVec.ofNat 36 w) ∧
    ∀ i, decodeTableWord nbits w = some i → step (s.withFetchWord nbits w) =
      exec i { s with busy := false, held := none, draw := s.draw + 1 }

/-- 30_encoding.md R61: a word is accepted exactly at an edge with `rst = 0`, `cmd_valid = 1` and `cmd_ready = 1`;
it is the word on the port then, and it is executed once; `cmd_ready = ~rst & ~BUSY` (70_reset_and_hazards.md R168).
-/
def Obligations.AcceptanceRule : Prop :=
  ∀ s : State,
    cmdReady s = (!(pins s).rst && !s.busy) ∧
    (∀ c : Cmd, edgeEvent s = .accept c ↔
      (pins s).rst = false ∧ (pins s).valid = true ∧ cmdReady s = true ∧ c = (pins s).op ++ (pins s).arg) ∧
    (∀ c : Cmd, edgeEvent s = .accept c → step s = execCmd c (acceptEdge s))

/-- An edge without reset that accepts nothing, the hold rule kept, is a step to a next state that changes no register
and no table word, and `BUSY` falls exactly when the work in progress is complete (10_state.md R26, 30_encoding.md R61).
That nothing changes even while a command is in progress is the model's choice, log entry 4: its effects stand at its
accepting edge. -/
def Obligations.NothingAcceptedNothingChanges : Prop :=
  ∀ s : State, (pins s).rst = false → (∀ c, edgeEvent s ≠ .accept c) → HostHolds s →
    ∃ t, step s = .next t ∧ SameBlock s t ∧ t.busy = (s.busy && !(pins s).done) ∧ t.held = edgeWord (pins s)

/-- No step stops, in any state. The hold rule of 70_reset_and_hazards.md R176 is broken, at an edge without reset that
accepts nothing, exactly when the word presented before is not on the port, valid and unchanged; the block then goes on
with what R176 leaves unspecified, of which only the limits of 10_state.md R23 and R28 are known (and the table's
canonical form, the model's choice, log entry 7). Those free values are the model's choice, log entry 14. -/
def Obligations.BrokenHoldGoesOn : Prop :=
  ∀ s : State,
    (∃ t, step s = .next t) ∧
    (edgeEvent s = .holdBroken ↔ (pins s).rst = false ∧ ¬ ((pins s).valid = true ∧ s.busy = false) ∧
      ∃ w, s.held = some w ∧ ¬ ((pins s).valid = true ∧ (pins s).op ++ (pins s).arg = w)) ∧
    (edgeEvent s = .holdBroken → ∃ t, step s = .next t ∧ t.Inv ∧ t.edges = s.edges.tail ∧
      t.held = if (pins s).valid then some ((pins s).op ++ (pins s).arg) else none)

/-- 70_reset_and_hazards.md R176, R160: after an edge at which the host broke the hold rule, exactly the word present at
the next accepting edge is accepted, nothing before it, and it is executed on the state that edge finds. Whether the
host withdrew its word, left the port idle until the work in progress was complete, and then presented a word; or
changed its word and held the new one, which is accepted at the first edge that finds `BUSY = 0`. A later reset is
taken. That the block follows these rules again from the edge after the broken hold, on free values, is the model's
choice, log entry 14. -/
def Obligations.BrokenHoldThenAcceptOrReset : Prop :=
  ∀ (s : State) (e : Edge), edgeEvent s = .holdBroken →
    (∀ (c : Cmd) (gap : List Edge) (last x : Edge) (rest : List Edge), s.edges = e :: (gap ++ last :: x :: rest) →
      e.valid = false → (∀ y ∈ gap ++ [last], y.rst = false ∧ y.valid = false) → last.done = true →
      x.rst = false → edgeWord x = some c →
      ∃ v, Host.Core.run core (gap.length + 2) s = .next v ∧ v.edges = x :: rest ∧
        acceptedCmds (gap.length + 2) s = [] ∧ edgeEvent v = .accept c ∧
        Host.Core.run core (gap.length + 3) s = execCmd c (acceptEdge v)) ∧
    (∀ (c : Cmd) (waits : List Edge) (last x : Edge) (rest : List Edge), s.edges = e :: (waits ++ last :: x :: rest) →
      edgeWord e = some c → (∀ y ∈ waits ++ [last, x], y.rst = false ∧ edgeWord y = some c) → last.done = true →
      ∃ k v, k ≤ waits.length + 1 ∧ Host.Core.run core (k + 1) s = .next v ∧ v.edges = s.edges.drop (k + 1) ∧
        acceptedCmds (k + 1) s = [] ∧ edgeEvent v = .accept c ∧
        Host.Core.run core (k + 2) s = execCmd c (acceptEdge v)) ∧
    (∀ (r : Edge) (rest : List Edge), s.edges = e :: r :: rest → r.rst = true →
      ∃ t, Host.Core.run core 2 s = .next t ∧ SameBlock t State.reset ∧ t.busy = true ∧ t.edges = rest)

/-- A host that keeps the hold rule of 70_reset_and_hazards.md R176 meets no unspecified edge: the step is reset, an
acceptance or a plain wait. After it the held word is exactly the one that was presented and not accepted, and with
nothing more in the list of edges the host keeps the rule again (log entry 9). -/
def Obligations.ConformingHostMeetsNoOpenEdge : Prop :=
  ∀ s : State, HostHolds s → edgeEvent s ≠ .holdBroken ∧
    ∃ t, step s = .next t ∧ t.edges = s.edges.tail ∧
      t.held = (if (pins s).valid && !cmdReady s then some ((pins s).op ++ (pins s).arg) else none) ∧
      (t.edges = [] → HostHolds t)

/-- 10_state.md R25, R26, R30: the fields of the `status` output; bits 31:4 read 0 and bit 0 is `BUSY` in every
state. That `BUSY` reads 1 from the moment `rst` is asserted is the model's reading, log entry 6. -/
def Obligations.StatusLayout : Prop :=
  ∀ s : State,
    (outputs s).status.getLsbD 0 = (s.busy || (pins s).rst) ∧
    (∀ k, 4 ≤ k → (outputs s).status.getLsbD k = false) ∧
    (s.busy = false → (pins s).rst = false →
      (outputs s).status.getLsbD 1 = s.ill ∧ (outputs s).status.extractLsb' 2 2 = s.icause)

/-- 10_state.md R30, R31, R38: in every state the `cmd_ready` output is `~BUSY` when `rst = 0` and 0 when `rst = 1`;
with `BUSY = 0` every output shows the register it names, and the index outputs are
the indices an ADD or TEST would use. -/
def Obligations.IdleOutputsShowRegisters : Prop :=
  ∀ s : State, (outputs s).cmdReady = (!(pins s).rst && !s.busy) ∧
    (s.busy = false → (pins s).rst = false →
      (outputs s).cmdReady = true ∧ (outputs s).hash = s.h ∧
      (outputs s).idxLo = s.h.extractLsb' 0 16 ∧ (outputs s).idxHi = s.h.extractLsb' 16 16 ∧
      (outputs s).result = (if s.result then 1 else 0) ∧ (outputs s).count = s.count ∧ (outputs s).rdata = s.rdata)

/-- 10_state.md R21 to R24: a step changes `H` only by reset or an accepted HINIT, HCHAR or HLOAD, `RESULT` only by
reset or TEST, `COUNT` only by reset or POPCNT, `RDATA` only by reset or RDWORD, and the table only by reset, ADD or
CLEAR. An edge at which the host broke the hold rule is apart: R176 leaves it unspecified. -/
def Obligations.OnlyTheseEventsWriteARegister : Prop :=
  ∀ s t : State, step s = .next t → edgeEvent s ≠ .reset → edgeEvent s ≠ .holdBroken →
    (t.h ≠ s.h → ∃ c i, edgeEvent s = .accept c ∧ decode c = .ok i ∧
      (i = .hinit ∨ (∃ x, i = .hchar x) ∨ ∃ v, i = .hload v)) ∧
    (t.result ≠ s.result → ∃ c, edgeEvent s = .accept c ∧ decode c = .ok .test) ∧
    (t.count ≠ s.count → ∃ c, edgeEvent s = .accept c ∧ decode c = .ok .popcnt) ∧
    (t.rdata ≠ s.rdata → ∃ c w, edgeEvent s = .accept c ∧ decode c = .ok (.rdword w)) ∧
    (t.table ≠ s.table → ∃ c i, edgeEvent s = .accept c ∧ decode c = .ok i ∧ (i = .add ∨ i = .clear))

/-- 10_state.md R27, 60_exceptions.md R144: `ILL` is set only by an accepted illegal word and cleared only by SCLR
or reset; while it is set the recorded cause stays, and it does not change what is accepted. An edge at which the host
broke the hold rule is apart: R176 leaves it unspecified. -/
def Obligations.IllIsSticky : Prop :=
  ∀ s t : State, step s = .next t →
    (edgeEvent s ≠ .holdBroken → s.ill = false → t.ill = true → ∃ c k, edgeEvent s = .accept c ∧ decode c = .error k) ∧
    (edgeEvent s ≠ .holdBroken → s.ill = true → (t.ill = false ∨ t.icause ≠ s.icause) →
      edgeEvent s = .reset ∨ edgeEvent s = .accept 0x900000000) ∧
    (∀ b : Bool, edgeEvent { s with ill := b } = edgeEvent s)

/-- Every step keeps the invariant: the table's canonical form, `ILL = 0` if and only if `ICAUSE = 0b00`, `ICAUSE`
never `0b11` (10_state.md R28), `COUNT` at most 65536 (R23). That the table is canonical is the model's choice, log entry 7. -/
def Obligations.StepKeepsInvariant : Prop := ∀ s t : State, s.Inv → step s = .next t → t.Inv

/-- 20_memory.md R51, R52, 70_reset_and_hazards.md R167: with no reset and no broken hold, whatever the host drives and
however long each command takes (log entries 1 and 4), the run goes on, and the registers and the table are those of the
accepted words executed one after another. -/
def Obligations.RunIsTheAcceptedWordsInOrder : Prop :=
  ∀ (k : Nat) (s : State), (∀ e ∈ s.edges, e.rst = false) → Along (fun u => edgeEvent u ≠ .holdBroken) k s →
    ∃ t u, Host.Core.run core k s = .next t ∧ execCmds (acceptedCmds k s) s = .next u ∧ SameBlock t u

/-- 30_encoding.md R61, 70_reset_and_hazards.md R176: over any number of edges, resets among them, the words a host that
keeps the hold rule presents are the words accepted, each once and in order, but for the one it still holds. -/
def Obligations.PresentedWordsAreAcceptedOnceInOrder : Prop :=
  ∀ (k : Nat) (s : State), Along HostHolds k s → ∃ t, Host.Core.run core k s = .next t ∧
    s.held.toList ++ presentedCmds k s = acceptedCmds k s ++ t.held.toList

/-- 30_encoding.md R61, 70_reset_and_hazards.md R167, R173, R176: the words of a host's program, each presented at any
edge from the one after the acceptance of the word before it on, while `BUSY = 1` or later, and held until it is
accepted, are all accepted and completed, for every number of edges that `BUSY` stays 1 after each. How edges and
latencies are held is the model's choice, log entries 1 and 4. -/
def Obligations.PresentedWordsAllComplete : Prop :=
  ∀ (n : Nat) (us : List Turn) (s : State) (rest : List Edge),
    s.busy = decide (busyBefore n us ≠ 0) → s.held = none → s.edges = driveEdges n us ++ rest →
    ∃ t u, Host.Core.run core (driveEdges n us).length s = .next t ∧ execCmds (us.map Turn.word) s = .next u ∧
      SameBlock t u ∧ t.busy = false ∧ t.held = none ∧ t.edges = rest
end

