-- ==== Sys2Proof/Laws/Encode.lean ====
section
/-! SUPPORT. The laws of the command word's two fields and of the opcode column. -/

namespace Sys2Proof

@[simp] theorem opField_cmdWord (op : BitVec 4) (arg : BitVec 32) : opField (cmdWord op arg) = op := by
  ext i hi
  simp only [opField, cmdWord, BitVec.getElem_extractLsb', BitVec.getLsbD_append]
  simp [BitVec.getLsbD_eq_getElem hi]

@[simp] theorem argField_cmdWord (op : BitVec 4) (arg : BitVec 32) : argField (cmdWord op arg) = arg := by
  ext i hi
  simp only [argField, cmdWord, BitVec.getElem_extractLsb', BitVec.getLsbD_append]
  simp [hi]

/-- A command word is its two fields (30_encoding.md R62). -/
theorem cmdWord_fields (c : Cmd) : cmdWord (opField c) (argField c) = c := by
  refine BitVec.eq_of_getLsbD_eq fun i hi => ?_
  simp only [cmdWord, opField, argField]
  rw [BitVec.getLsbD_append]
  split
  · simp [*]
  · have h4 : i - 32 < 4 := by omega
    simp only [BitVec.getLsbD_extractLsb', h4, decide_true, Bool.true_and]
    rw [show 32 + (i - 32) = i by omega]

@[simp] theorem opcodeOf_code (o : Opcode) : opcodeOf o.code = some o := by cases o <;> rfl

theorem code_of_opcodeOf {op : BitVec 4} {o : Opcode} (h : opcodeOf op = some o) : o.code = op := by
  have key : ∀ op : Fin 16, ∀ o : Opcode, opcodeOf (BitVec.ofFin op) = some o → o.code = BitVec.ofFin op := by
    intro op o
    fin_cases op <;> cases o <;> decide
  exact key op.toFin o h

theorem code_injective {o o' : Opcode} (h : o.code = o'.code) : o = o' := by
  simpa using congrArg opcodeOf h

/-- A word matches a row of the opcode map exactly when it has the row's opcode and no 1 in a reserved bit (R66). -/
theorem matches_row_iff (o : Opcode) (c : Cmd) :
    c &&& o.maskWord = o.matchWord ↔ opField c = o.code ∧ argField c &&& o.format.reserved = 0 := by
  have hmask : o.maskWord = cmdWord 0xF o.format.reserved := by cases o <;> rfl
  have hmatch : o.matchWord = cmdWord o.code 0 := by cases o <;> rfl
  have hand : ∀ (op : BitVec 4) (arg : BitVec 32),
      cmdWord op arg &&& cmdWord 0xF o.format.reserved = cmdWord op (arg &&& o.format.reserved) := by
    intro op arg
    refine BitVec.eq_of_getLsbD_eq fun i hi => ?_
    simp only [cmdWord]
    rw [BitVec.getLsbD_and, BitVec.getLsbD_append, BitVec.getLsbD_append, BitVec.getLsbD_append]
    split
    · simp
    · have hf : (0xF#4).getLsbD (i - 32) = true := by
        interval_cases i <;> simp at *
      simp [hf]
  rw [← cmdWord_fields c, hmask, hmatch, hand]
  simp only [opField_cmdWord, argField_cmdWord]
  constructor
  · intro h
    exact ⟨by simpa using congrArg opField h, by simpa using congrArg argField h⟩
  · rintro ⟨h1, h2⟩
    rw [h1, h2]

/-- Decoding a word whose opcode is defined (R66). -/
theorem decode_of_opField {c : Cmd} {o : Opcode} (h : opField c = o.code) :
    decode c =
      if argField c &&& o.format.reserved = 0 then .ok (buildInstr o (argField c)) else .error .reservedBit := by
  unfold decode
  rw [h, opcodeOf_code]
  simp only [matches_row_iff, h, true_and]

@[simp] theorem buildInstr_opcode (o : Opcode) (arg : BitVec 32) : (buildInstr o arg).opcode = o := by
  cases o <;> rfl

end Sys2Proof
end

