-- ==== Sys2Proof/Laws/Table.lean ====
section
/-! SUPPORT. The laws of the table: every operation keeps the canonical form, a read after a write gives the value
written there and leaves every other word alone, and two canonical tables that read alike are equal. -/

namespace Sys2Proof.Machine

theorem Memory.wfFrom_cons {lo a : Nat} {v : TableWord} {rest : Memory} :
    Memory.wfFrom lo ((a, v) :: rest) = true ↔
      lo ≤ a ∧ a < Config.nWords ∧ v ≠ 0 ∧ Memory.wfFrom (a + 1) rest = true := by
  simp [Memory.wfFrom, and_assoc]

theorem Memory.wfFrom_mono {lo lo' : Nat} (hle : lo' ≤ lo) : ∀ {t : Memory},
    Memory.wfFrom lo t = true → Memory.wfFrom lo' t = true
  | [], _ => rfl
  | (a, v) :: rest, h => by
    rw [Memory.wfFrom_cons] at h ⊢
    exact ⟨by omega, h.2⟩

theorem lookupWord_below {t : Memory} {lo k : Nat} (h : Memory.wfFrom lo t = true) (hk : k < lo) :
    lookupWord t k = 0 := by
  induction t generalizing lo with
  | nil => rfl
  | cons c rest ih =>
    obtain ⟨a, v⟩ := c
    rw [Memory.wfFrom_cons] at h
    have hne : a ≠ k := by omega
    simpa [lookupWord, hne] using ih h.2.2.2 (by omega)

theorem putWord_wfFrom {t : Memory} {lo k : Nat} {v : TableWord} (h : Memory.wfFrom lo t = true) (hlo : lo ≤ k)
    (hk : k < Config.nWords) : Memory.wfFrom lo (putWord t k v) = true := by
  induction t generalizing lo with
  | nil =>
    by_cases hv : v = 0
    · simp [putWord, hv, Memory.wfFrom]
    · rw [putWord, if_neg hv, Memory.wfFrom_cons]
      exact ⟨hlo, hk, hv, rfl⟩
  | cons c rest ih =>
    obtain ⟨a, u⟩ := c
    have h' := h
    rw [Memory.wfFrom_cons] at h'
    obtain ⟨h1, h2, h3, h4⟩ := h'
    unfold putWord
    split
    · split
      · exact h
      · rw [Memory.wfFrom_cons, Memory.wfFrom_cons]
        exact ⟨hlo, hk, ‹_›, by omega, h2, h3, h4⟩
    · split
      · subst k
        split
        · exact Memory.wfFrom_mono (by omega) h4
        · rw [Memory.wfFrom_cons]
          exact ⟨h1, h2, ‹_›, h4⟩
      · rw [Memory.wfFrom_cons]
        exact ⟨h1, h2, h3, ih h4 (by omega)⟩

theorem lookupWord_putWord {t : Memory} {lo k : Nat} {v : TableWord} (h : Memory.wfFrom lo t = true) (j : Nat) :
    lookupWord (putWord t k v) j = if j = k then v else lookupWord t j := by
  induction t generalizing lo with
  | nil =>
    by_cases hv : v = 0
    · simp [putWord, hv, lookupWord]
    · rw [putWord, if_neg hv]
      simp only [lookupWord, eq_comm (a := k)]
  | cons c rest ih =>
    obtain ⟨a, u⟩ := c
    have h' := h
    rw [Memory.wfFrom_cons] at h'
    obtain ⟨h1, h2, h3, h4⟩ := h'
    unfold putWord
    split
    · rename_i hka
      split
      · subst v
        by_cases hj : j = k
        · subst hj
          rw [if_pos rfl]
          exact lookupWord_below (lo := j + 1) (Memory.wfFrom_cons.2 ⟨by omega, h2, h3, h4⟩) (by omega)
        · rw [if_neg hj]
      · simp only [lookupWord, eq_comm (a := k)]
    · split
      · subst k
        split
        · subst v
          by_cases hj : j = a
          · subst hj
            rw [if_pos rfl]
            exact lookupWord_below h4 (by omega)
          · rw [if_neg hj]
            simp only [lookupWord, if_neg (Ne.symm hj)]
        · simp only [lookupWord]
          by_cases hj : a = j
          · rw [if_pos hj, if_pos hj.symm]
          · rw [if_neg hj, if_neg hj, if_neg (Ne.symm hj)]
      · simp only [lookupWord, ih h4]
        split_ifs <;> first | rfl | omega

theorem table_ext_from {t u : Memory} {lo lo' : Nat} (ht : Memory.wfFrom lo t = true) (hu : Memory.wfFrom lo' u = true)
    (h : ∀ k, lookupWord t k = lookupWord u k) : t = u := by
  induction t generalizing u lo lo' with
  | nil =>
    cases u with
    | nil => rfl
    | cons d rest =>
      obtain ⟨b, v⟩ := d
      rw [Memory.wfFrom_cons] at hu
      exact absurd (h b) (by simpa [lookupWord] using Ne.symm hu.2.2.1)
  | cons c rest ih =>
    obtain ⟨a, v⟩ := c
    have ht' := Memory.wfFrom_cons.1 ht
    cases u with
    | nil => exact absurd (h a) (by simpa [lookupWord] using ht'.2.2.1)
    | cons d rest' =>
      obtain ⟨b, w⟩ := d
      have hu' := Memory.wfFrom_cons.1 hu
      have hab : a = b := by
        rcases Nat.lt_trichotomy a b with hlt | heq | hgt
        · have h0 := lookupWord_below (lo := b) (Memory.wfFrom_cons.2 ⟨le_refl b, hu'.2⟩) hlt
          exact absurd ((h a).trans h0) (by simpa [lookupWord] using ht'.2.2.1)
        · exact heq
        · have h0 := lookupWord_below (lo := a) (Memory.wfFrom_cons.2 ⟨le_refl a, ht'.2⟩) hgt
          exact absurd ((h b).symm.trans h0) (by simpa [lookupWord] using hu'.2.2.1)
      subst hab
      have hvw : v = w := by simpa [lookupWord] using h a
      subst hvw
      have hrest : rest = rest' := by
        refine ih ht'.2.2.2 hu'.2.2.2 fun k => ?_
        rcases Nat.lt_or_ge k (a + 1) with hk | hk
        · rw [lookupWord_below ht'.2.2.2 hk, lookupWord_below hu'.2.2.2 hk]
        · have hne : a ≠ k := by omega
          simpa [lookupWord, hne] using h k
      rw [hrest]

theorem lookupWord_above {t : Memory} {lo k : Nat} (h : Memory.wfFrom lo t = true) (hk : Config.nWords ≤ k) :
    lookupWord t k = 0 := by
  induction t generalizing lo with
  | nil => rfl
  | cons c rest ih =>
    obtain ⟨a, v⟩ := c
    rw [Memory.wfFrom_cons] at h
    have hne : a ≠ k := by omega
    simpa [lookupWord, hne] using ih h.2.2.2

theorem wordsFrom_wfFrom (f : WordAddr → TableWord) (n lo : Nat) (h : lo + n ≤ Config.nWords) :
    Memory.wfFrom lo (wordsFrom f lo n) = true := by
  induction n generalizing lo with
  | zero => rfl
  | succ n ih =>
    have hrest := ih (lo + 1) (by omega)
    rw [wordsFrom]
    split
    · exact Memory.wfFrom_mono (by omega) hrest
    · exact Memory.wfFrom_cons.2 ⟨le_refl _, by omega, ‹_›, hrest⟩

theorem lookupWord_wordsFrom (f : WordAddr → TableWord) (n lo : Nat) (h : lo + n ≤ Config.nWords) {k : Nat}
    (hlo : lo ≤ k) (hk : k < lo + n) : lookupWord (wordsFrom f lo n) k = f (BitVec.ofNat 10 k) := by
  induction n generalizing lo with
  | zero => omega
  | succ n ih =>
    have hwf := wordsFrom_wfFrom f n (lo + 1) (by omega)
    rw [wordsFrom]
    rcases Nat.eq_or_lt_of_le hlo with rfl | hlt
    · split
      · rw [lookupWord_below hwf (by omega), ‹f _ = 0›]
      · simp [lookupWord]
    · have hne : lo ≠ k := by omega
      split
      · exact ih (lo + 1) (by omega) hlt (by omega)
      · simpa [lookupWord, hne] using ih (lo + 1) (by omega) hlt (by omega)

@[simp] theorem tableOfWords_wf (f : WordAddr → TableWord) : Memory.wf (tableOfWords f) = true :=
  wordsFrom_wfFrom f _ 0 (by simp)

theorem wordAddr_lt (w : WordAddr) : w.toNat < Config.nWords := w.isLt

@[simp] theorem zeroTable_wf : Memory.wf zeroTable = true := rfl

@[simp] theorem arrRead_zeroTable (w : WordAddr) : arrRead zeroTable w = 0 := rfl

theorem arrWrite_wf {t : Memory} (h : Memory.wf t = true) (w : WordAddr) (v : TableWord) :
    Memory.wf (arrWrite t w v) = true :=
  putWord_wfFrom h (Nat.zero_le _) (wordAddr_lt w)

theorem arrSet_wf {t : Memory} (h : Memory.wf t = true) (w : WordAddr) (m : TableWord) :
    Memory.wf (arrSet t w m) = true := arrWrite_wf h w _

theorem arrClear_wf {t : Memory} (h : Memory.wf t = true) (w : WordAddr) : Memory.wf (arrClear t w) = true :=
  arrWrite_wf h w 0

/-- A read after a word write. -/
theorem arrRead_arrWrite {t : Memory} (h : Memory.wf t = true) (w u : WordAddr) (v : TableWord) :
    arrRead (arrWrite t w v) u = if u = w then v else arrRead t u := by
  simp only [arrRead, arrWrite]
  rw [lookupWord_putWord (lo := 0) h]
  simp [BitVec.toNat_eq]

/-- A read after a per-word set. -/
theorem arrRead_arrSet {t : Memory} (h : Memory.wf t = true) (w u : WordAddr) (m : TableWord) :
    arrRead (arrSet t w m) u = if u = w then arrRead t u ||| m else arrRead t u := by
  rw [arrSet, arrRead_arrWrite h]
  split <;> simp_all

@[simp] theorem arrRead_tableOfWords (f : WordAddr → TableWord) (w : WordAddr) : arrRead (tableOfWords f) w = f w := by
  rw [arrRead, tableOfWords, lookupWord_wordsFrom f _ 0 (by simp) (Nat.zero_le _) (by simpa using wordAddr_lt w)]
  simp

/-- Two canonical tables that read alike at every word address are equal. -/
theorem table_ext {t u : Memory} (ht : Memory.wf t = true) (hu : Memory.wf u = true)
    (h : ∀ w, arrRead t w = arrRead u w) : t = u := by
  refine table_ext_from ht hu fun k => ?_
  rcases Nat.lt_or_ge k Config.nWords with hk | hk
  · have hk' : k < 1024 := hk
    have := h (BitVec.ofNat 10 k)
    simpa [arrRead, Nat.mod_eq_of_lt hk'] using this
  · rw [lookupWord_above (lo := 0) ht hk, lookupWord_above (lo := 0) hu hk]

end Sys2Proof.Machine
end

