-- ==== Sys2Proof/Laws/Ops.lean ====
section
/-! SUPPORT. What each shared operation can do: the two indices, one bit of the table, the dual bit-set, and the
population count. -/

namespace Sys2Proof.Machine

theorem idxLo_eq (h : HashWord) : idxLo h = h.extractLsb' 0 16 := by
  ext i hi
  simp only [idxLo, BitVec.getElem_extractLsb', BitVec.getLsbD_and]
  have hm : (0x0000FFFF#32).getLsbD (0 + i) = true := by
    interval_cases i <;> rfl
  rw [hm, Bool.and_true]

theorem idxHi_eq (h : HashWord) : idxHi h = h.extractLsb' 16 16 := by
  ext i hi
  simp only [idxHi, BitVec.getElem_extractLsb', BitVec.getLsbD_and, BitVec.getLsbD_ushiftRight]
  have hm : (0xFFFF0000#32).getLsbD (16 + (0 + i)) = true := by
    interval_cases i <;> rfl
  rw [hm, Bool.and_true, Nat.zero_add]

theorem wordOf_toNat (i : BitIndex) : (wordOf i).toNat = i.toNat / 64 := by
  have := i.isLt
  simp only [wordOf, BitVec.extractLsb'_toNat, Nat.shiftRight_eq_div_pow]
  omega

theorem posOf_toNat (i : BitIndex) : (posOf i).toNat = i.toNat % 64 := by
  simp [posOf, BitVec.extractLsb'_toNat]

/-- A bit index is its word and its position (20_memory.md R41). -/
theorem bitIndex_eq_iff (i j : BitIndex) : i = j ↔ wordOf i = wordOf j ∧ posOf i = posOf j := by
  simp only [BitVec.toNat_eq, wordOf_toNat, posOf_toNat]
  omega

theorem bitmask_getLsbD (p : BitPos) {q : Nat} (hq : q < 64) : (bitmask p).getLsbD q = decide (q = p.toNat) := by
  have hp : p.toNat < 64 := p.isLt
  simp only [bitmask, BitVec.getLsbD_shiftLeft, BitVec.getLsbD_one]
  by_cases h : q = p.toNat
  · subst h; simp [hp]
  · simp [h]; omega

/-- The dual bit-set on a canonical table, word by word (41_table_ops.md R101). -/
theorem arrRead_dualSet {t : Memory} (ht : Memory.wf t = true) (h : HashWord) (w : WordAddr) :
    arrRead (dualSet t h) w =
      arrRead t w ||| (if w = wordOf (idxLo h) then bitmask (posOf (idxLo h)) else 0) |||
        (if w = wordOf (idxHi h) then bitmask (posOf (idxHi h)) else 0) := by
  unfold dualSet
  by_cases hw : wordOf (idxLo h) = wordOf (idxHi h)
  · simp only [hw, if_true, arrRead_arrWrite ht]
    split_ifs with hc
    · rw [hc]
    · simp
  · simp only [if_neg hw, arrRead_arrSet (arrSet_wf ht _ _), arrRead_arrSet ht]
    split_ifs <;> simp_all

theorem dualSet_wf {t : Memory} (ht : Memory.wf t = true) (h : HashWord) : Memory.wf (dualSet t h) = true := by
  simp only [dualSet]
  split
  · exact arrWrite_wf ht _ _
  · exact arrSet_wf (arrSet_wf ht _ _) _ _

/-- The dual bit-set on a canonical table, bit by bit: the two indexed bits become 1, every other bit stays. -/
theorem tableBit_dualSet {t : Memory} (ht : Memory.wf t = true) (h : HashWord) (i : BitIndex) :
    tableBit (dualSet t h) i = (tableBit t i || decide (i = idxLo h) || decide (i = idxHi h)) := by
  have hp : (posOf i).toNat < 64 := (posOf i).isLt
  have key : ∀ j : BitIndex,
      (if wordOf i = wordOf j then bitmask (posOf j) else 0).getLsbD (posOf i).toNat = decide (i = j) := by
    intro j
    by_cases hw : wordOf i = wordOf j
    · rw [if_pos hw, bitmask_getLsbD _ hp]
      simp [bitIndex_eq_iff i j, hw, BitVec.toNat_eq]
    · have hne : i ≠ j := fun e => hw (by rw [e])
      simp [hw, hne]
  simp only [tableBit, arrRead_dualSet ht, BitVec.getLsbD_or, key]

@[simp] theorem tableBit_zeroTable (i : BitIndex) : tableBit zeroTable i = false := by simp [tableBit]

theorem dualTest_eq_true {t : Memory} {h : HashWord} :
    dualTest t h = true ↔ tableBit t (idxLo h) = true ∧ tableBit t (idxHi h) = true := by
  simp [dualTest]

theorem onesBelow_eq (k n : Nat) : onesBelow k n = ((Finset.range k).filter fun p => n.testBit p = true).card := by
  induction k generalizing n with
  | zero => rfl
  | succ k ih =>
    have hcard : ((Finset.range (k + 1)).filter fun p => n.testBit p = true).card
        = n % 2 + ((Finset.range k).filter fun p => (n / 2).testBit p = true).card := by
      simp only [Finset.card_filter, Finset.sum_range_succ', Nat.testBit_succ]
      rw [Nat.add_comm]
      congr 1
      rcases Nat.mod_two_eq_zero_or_one n with h | h <;> simp [Nat.testBit_zero, h]
    rw [hcard, onesBelow]
    split
    · subst n; simp
    · rw [ih]

/-- The population count of a word is the number of its positions that hold a 1. -/
theorem popcount_eq (v : TableWord) : popcount v = ((Finset.range 64).filter fun p => v.getLsbD p = true).card := by
  simp only [popcount, onesBelow_eq, BitVec.testBit_toNat]
  rfl

/-- Bit `p` of word `k` is bit index `64 * k + p` (20_memory.md R41). -/
theorem tableBit_at (t : Memory) {k p : Nat} (hk : k < 1024) (hp : p < 64) :
    tableBit t (BitVec.ofNat 16 (64 * k + p)) = (lookupWord t k).getLsbD p := by
  have hn : (BitVec.ofNat 16 (64 * k + p)).toNat = 64 * k + p := by
    rw [BitVec.toNat_ofNat]
    exact Nat.mod_eq_of_lt (by omega)
  have hw : (64 * k + p) / 64 = k := by omega
  have hq : (64 * k + p) % 64 = p := by omega
  rw [tableBit, arrRead, wordOf_toNat, posOf_toNat, hn, hw, hq]

theorem popcountBelow_eq (t : Memory) (k : Nat) (hk : k ≤ 1024) :
    popcountBelow t k = ((Finset.range (64 * k)).filter fun i => tableBit t (BitVec.ofNat 16 i) = true).card := by
  induction k with
  | zero => rfl
  | succ k ih =>
    have hbit : ∀ p ∈ Finset.range 64,
        (if tableBit t (BitVec.ofNat 16 (64 * k + p)) = true then 1 else 0) =
          if (lookupWord t k).getLsbD p = true then 1 else 0 := fun p hp => by
      rw [tableBit_at t (by omega) (Finset.mem_range.1 hp)]
    rw [popcountBelow, ih (by omega), popcount_eq]
    simp only [Finset.card_filter]
    rw [Nat.mul_succ, Finset.sum_range_add, Finset.sum_congr rfl hbit]

/-- POPCNT's loop counts the table bits that are 1. -/
theorem tablePopcount_eq (t : Memory) : tablePopcount t = tableOnes t := popcountBelow_eq t 1024 le_rfl

theorem tableOnes_le (t : Memory) : tableOnes t ≤ 65536 := by
  refine (Finset.card_filter_le _ _).trans ?_
  rw [Finset.card_range, Config.nBits]

/-- `COUNT` holds the exact sum: 17 bits are enough. -/
theorem count_toNat (t : Memory) : (BitVec.ofNat 17 (tablePopcount t)).toNat = tableOnes t := by
  rw [tablePopcount_eq, BitVec.toNat_ofNat]
  exact Nat.mod_eq_of_lt (Nat.lt_of_le_of_lt (tableOnes_le t) (by norm_num))

/-- The hash step as a number (40_hashing.md R84). -/
theorem hashStep_toNat (h : HashWord) (c : CharCode) : (hashStep h c).toNat = (31 * h.toNat + c.toNat) % 2 ^ 32 := by
  simp [hashStep, charWord, Config.hashBase]

/-- The dual bit-set adds one 1 bit for each index whose bit was 0, the same index once. -/
theorem tableOnes_dualSet {t : Memory} (ht : Memory.wf t = true) (h : HashWord) :
    tableOnes (dualSet t h) = tableOnes t + (if tableBit t (idxLo h) then 0 else 1) +
      (if tableBit t (idxHi h) || decide (idxHi h = idxLo h) then 0 else 1) := by
  set f : Finset Nat := (Finset.range Config.nBits).filter fun i => tableBit t (BitVec.ofNat 16 i) = true with hf
  have hmem : ∀ i : BitIndex, i.toNat ∈ f ↔ tableBit t i = true := by
    intro i
    have hi : i.toNat < Config.nBits := i.isLt
    simp [hf, hi]
  have hset : ((Finset.range Config.nBits).filter fun i => tableBit (dualSet t h) (BitVec.ofNat 16 i) = true)
      = insert (idxHi h).toNat (insert (idxLo h).toNat f) := by
    ext i
    simp only [Finset.mem_filter, Finset.mem_range, tableBit_dualSet ht, Finset.mem_insert, hf, Bool.or_eq_true,
      decide_eq_true_eq]
    constructor
    · rintro ⟨hi, (h1 | h1) | h1⟩
      · exact .inr (.inr ⟨hi, h1⟩)
      · exact .inr (.inl (by rw [← h1, BitVec.toNat_ofNat]; exact (Nat.mod_eq_of_lt hi).symm))
      · exact .inl (by rw [← h1, BitVec.toNat_ofNat]; exact (Nat.mod_eq_of_lt hi).symm)
    · rintro (h1 | h1 | ⟨hi, h1⟩)
      · subst h1; exact ⟨(idxHi h).isLt, .inr (by simp)⟩
      · subst h1; exact ⟨(idxLo h).isLt, .inl (.inr (by simp))⟩
      · exact ⟨hi, .inl (.inl h1)⟩
  rw [tableOnes, hset, Finset.card_insert_eq_ite, Finset.card_insert_eq_ite]
  simp only [Finset.mem_insert, hmem, ← BitVec.toNat_eq]
  change _ = f.card + _ + _
  by_cases h1 : tableBit t (idxLo h) = true <;> by_cases h2 : tableBit t (idxHi h) = true <;>
    by_cases h3 : idxHi h = idxLo h <;> simp [h1, h2, h3]

theorem tableOnes_mono {t u : Memory} (h : ∀ j, tableBit t j = true → tableBit u j = true) :
    tableOnes t ≤ tableOnes u := by
  refine Finset.card_le_card fun i hi => ?_
  simp only [Finset.mem_filter] at hi ⊢
  exact ⟨hi.1, h _ hi.2⟩

end Sys2Proof.Machine
end

