-- ==== Sys2Proof/Laws/PerInstr.lean ====
section
/-! SUPPORT. The family Encoding: a command's word has the command's opcode and argument in its two fields and matches
the command's row of the opcode map (30_encoding.md R62, R65). -/

namespace Sys2Proof.Laws.Encoding

def Statement (i : Instr) : Prop :=
  opField (encode i) = i.opcode.code ∧ argField (encode i) = i.arg ∧
    encode i &&& i.opcode.maskWord = i.opcode.matchWord

theorem of_row {i : Instr} (h : encode i &&& i.opcode.maskWord = i.opcode.matchWord) : Statement i :=
  ⟨opField_cmdWord _ _, argField_cmdWord _ _, h⟩

theorem nop : Statement .nop := of_row rfl

theorem hinit : Statement .hinit := of_row rfl

theorem hchar (c : CharCode) : Statement (.hchar c) := of_row (by
  ext i hi
  simp only [encode, cmdWord, Instr.opcode, Instr.arg, Opcode.code, Opcode.maskWord, Opcode.matchWord,
    BitVec.getElem_and, BitVec.getElem_append, BitVec.getElem_setWidth]
  interval_cases i <;> simp)

theorem hload (v : HashWord) : Statement (.hload v) := of_row (by
  ext i hi
  simp only [encode, cmdWord, Instr.opcode, Instr.arg, Opcode.code, Opcode.maskWord, Opcode.matchWord,
    BitVec.getElem_and, BitVec.getElem_append]
  interval_cases i <;> simp)

theorem add : Statement .add := of_row rfl

theorem test : Statement .test := of_row rfl

theorem popcnt : Statement .popcnt := of_row rfl

theorem rdword (w : WordAddr) : Statement (.rdword w) := of_row (by
  ext i hi
  simp only [encode, cmdWord, Instr.opcode, Instr.arg, Opcode.code, Opcode.maskWord, Opcode.matchWord,
    BitVec.getElem_and, BitVec.getElem_append, BitVec.getElem_setWidth]
  interval_cases i <;> simp)

theorem clear : Statement .clear := of_row rfl

theorem sclr : Statement .sclr := of_row rfl

end Sys2Proof.Laws.Encoding
end

