-- ==== Sys2Proof/Laws/State.lean ====
section
/-! SUPPORT. One lemma per field of State per named update, so that no later proof unfolds a record update, and each
command's meaning as one equation. -/

namespace Sys2Proof.Machine

@[simp] theorem raiseIllegal_h (cause : IllegalCause) (s : State) : (raiseIllegal cause s).h = s.h := rfl
@[simp] theorem raiseIllegal_result (cause : IllegalCause) (s : State) : (raiseIllegal cause s).result = s.result := rfl
@[simp] theorem raiseIllegal_count (cause : IllegalCause) (s : State) : (raiseIllegal cause s).count = s.count := rfl
@[simp] theorem raiseIllegal_rdata (cause : IllegalCause) (s : State) : (raiseIllegal cause s).rdata = s.rdata := rfl
@[simp] theorem raiseIllegal_busy (cause : IllegalCause) (s : State) : (raiseIllegal cause s).busy = s.busy := rfl
@[simp] theorem raiseIllegal_ill (cause : IllegalCause) (s : State) : (raiseIllegal cause s).ill = true := rfl
@[simp] theorem raiseIllegal_icause (cause : IllegalCause) (s : State) : (raiseIllegal cause s).icause = if s.ill then s.icause else causeCode cause := rfl
@[simp] theorem raiseIllegal_table (cause : IllegalCause) (s : State) : (raiseIllegal cause s).table = s.table := rfl
@[simp] theorem raiseIllegal_edges (cause : IllegalCause) (s : State) : (raiseIllegal cause s).edges = s.edges := rfl
@[simp] theorem raiseIllegal_held (cause : IllegalCause) (s : State) : (raiseIllegal cause s).held = s.held := rfl
@[simp] theorem raiseIllegal_draw (cause : IllegalCause) (s : State) : (raiseIllegal cause s).draw = s.draw := rfl

@[simp] theorem clearIllegal_h (s : State) : (clearIllegal s).h = s.h := rfl
@[simp] theorem clearIllegal_result (s : State) : (clearIllegal s).result = s.result := rfl
@[simp] theorem clearIllegal_count (s : State) : (clearIllegal s).count = s.count := rfl
@[simp] theorem clearIllegal_rdata (s : State) : (clearIllegal s).rdata = s.rdata := rfl
@[simp] theorem clearIllegal_busy (s : State) : (clearIllegal s).busy = s.busy := rfl
@[simp] theorem clearIllegal_ill (s : State) : (clearIllegal s).ill = false := rfl
@[simp] theorem clearIllegal_icause (s : State) : (clearIllegal s).icause = 0 := rfl
@[simp] theorem clearIllegal_table (s : State) : (clearIllegal s).table = s.table := rfl
@[simp] theorem clearIllegal_edges (s : State) : (clearIllegal s).edges = s.edges := rfl
@[simp] theorem clearIllegal_held (s : State) : (clearIllegal s).held = s.held := rfl
@[simp] theorem clearIllegal_draw (s : State) : (clearIllegal s).draw = s.draw := rfl

@[simp] theorem acceptEdge_h (s : State) : (acceptEdge s).h = s.h := rfl
@[simp] theorem acceptEdge_result (s : State) : (acceptEdge s).result = s.result := rfl
@[simp] theorem acceptEdge_count (s : State) : (acceptEdge s).count = s.count := rfl
@[simp] theorem acceptEdge_rdata (s : State) : (acceptEdge s).rdata = s.rdata := rfl
@[simp] theorem acceptEdge_busy (s : State) : (acceptEdge s).busy = !(pins s).done := rfl
@[simp] theorem acceptEdge_ill (s : State) : (acceptEdge s).ill = s.ill := rfl
@[simp] theorem acceptEdge_icause (s : State) : (acceptEdge s).icause = s.icause := rfl
@[simp] theorem acceptEdge_table (s : State) : (acceptEdge s).table = s.table := rfl
@[simp] theorem acceptEdge_edges (s : State) : (acceptEdge s).edges = s.edges.tail := rfl
@[simp] theorem acceptEdge_held (s : State) : (acceptEdge s).held = none := rfl
@[simp] theorem acceptEdge_draw (s : State) : (acceptEdge s).draw = s.draw + 1 := rfl

@[simp] theorem waitEdge_h (s : State) : (waitEdge s).h = s.h := rfl
@[simp] theorem waitEdge_result (s : State) : (waitEdge s).result = s.result := rfl
@[simp] theorem waitEdge_count (s : State) : (waitEdge s).count = s.count := rfl
@[simp] theorem waitEdge_rdata (s : State) : (waitEdge s).rdata = s.rdata := rfl
@[simp] theorem waitEdge_busy (s : State) : (waitEdge s).busy = (s.busy && !(pins s).done) := rfl
@[simp] theorem waitEdge_ill (s : State) : (waitEdge s).ill = s.ill := rfl
@[simp] theorem waitEdge_icause (s : State) : (waitEdge s).icause = s.icause := rfl
@[simp] theorem waitEdge_table (s : State) : (waitEdge s).table = s.table := rfl
@[simp] theorem waitEdge_edges (s : State) : (waitEdge s).edges = s.edges.tail := rfl
@[simp] theorem waitEdge_held (s : State) : (waitEdge s).held = presented s := rfl
@[simp] theorem waitEdge_draw (s : State) : (waitEdge s).draw = s.draw + 1 := rfl

@[simp] theorem brokenEdge_h (s : State) : (brokenEdge s).h = Config.brokenH s.draw := rfl
@[simp] theorem brokenEdge_result (s : State) : (brokenEdge s).result = Config.brokenResult s.draw := rfl
@[simp] theorem brokenEdge_count (s : State) : (brokenEdge s).count = BitVec.ofNat 17 (Config.brokenCount s.draw).val := rfl
@[simp] theorem brokenEdge_rdata (s : State) : (brokenEdge s).rdata = Config.brokenRdata s.draw := rfl
@[simp] theorem brokenEdge_busy (s : State) : (brokenEdge s).busy = Config.brokenBusy s.draw := rfl
@[simp] theorem brokenEdge_ill (s : State) : (brokenEdge s).ill = (Config.brokenCause s.draw).isSome := rfl
@[simp] theorem brokenEdge_icause (s : State) : (brokenEdge s).icause = causeField (Config.brokenCause s.draw) := rfl
@[simp] theorem brokenEdge_table (s : State) : (brokenEdge s).table = tableOfWords (Config.brokenWord s.draw) := rfl
@[simp] theorem brokenEdge_edges (s : State) : (brokenEdge s).edges = s.edges.tail := rfl
@[simp] theorem brokenEdge_held (s : State) : (brokenEdge s).held = presented s := rfl
@[simp] theorem brokenEdge_draw (s : State) : (brokenEdge s).draw = s.draw + 1 := rfl

@[simp] theorem resetEdge_h (s : State) : (resetEdge s).h = 0 := rfl
@[simp] theorem resetEdge_result (s : State) : (resetEdge s).result = false := rfl
@[simp] theorem resetEdge_count (s : State) : (resetEdge s).count = 0 := rfl
@[simp] theorem resetEdge_rdata (s : State) : (resetEdge s).rdata = 0 := rfl
@[simp] theorem resetEdge_busy (s : State) : (resetEdge s).busy = true := rfl
@[simp] theorem resetEdge_ill (s : State) : (resetEdge s).ill = false := rfl
@[simp] theorem resetEdge_icause (s : State) : (resetEdge s).icause = 0 := rfl
@[simp] theorem resetEdge_table (s : State) : (resetEdge s).table = zeroTable := rfl
@[simp] theorem resetEdge_edges (s : State) : (resetEdge s).edges = s.edges.tail := rfl
@[simp] theorem resetEdge_held (s : State) : (resetEdge s).held = presented s := rfl
@[simp] theorem resetEdge_draw (s : State) : (resetEdge s).draw = s.draw + 1 := rfl

@[simp] theorem placeCmd_h (cmd : Cmd) (s : State) : (placeCmd cmd s).h = s.h := rfl
@[simp] theorem placeCmd_result (cmd : Cmd) (s : State) : (placeCmd cmd s).result = s.result := rfl
@[simp] theorem placeCmd_count (cmd : Cmd) (s : State) : (placeCmd cmd s).count = s.count := rfl
@[simp] theorem placeCmd_rdata (cmd : Cmd) (s : State) : (placeCmd cmd s).rdata = s.rdata := rfl
@[simp] theorem placeCmd_busy (cmd : Cmd) (s : State) : (placeCmd cmd s).busy = false := rfl
@[simp] theorem placeCmd_ill (cmd : Cmd) (s : State) : (placeCmd cmd s).ill = s.ill := rfl
@[simp] theorem placeCmd_icause (cmd : Cmd) (s : State) : (placeCmd cmd s).icause = s.icause := rfl
@[simp] theorem placeCmd_table (cmd : Cmd) (s : State) : (placeCmd cmd s).table = s.table := rfl
@[simp] theorem placeCmd_edges (cmd : Cmd) (s : State) : (placeCmd cmd s).edges = presentEdge cmd true :: s.edges := rfl
@[simp] theorem placeCmd_held (cmd : Cmd) (s : State) : (placeCmd cmd s).held = s.held := rfl
@[simp] theorem placeCmd_draw (cmd : Cmd) (s : State) : (placeCmd cmd s).draw = s.draw := rfl

@[simp] theorem exec_nop (s : State) : exec .nop s = .next s := rfl
@[simp] theorem exec_hinit (s : State) : exec .hinit s = .next { s with h := 0 } := rfl
@[simp] theorem exec_hchar (c : CharCode) (s : State) : exec (.hchar c) s = .next { s with h := hashStep s.h c } := rfl
@[simp] theorem exec_hload (v : HashWord) (s : State) : exec (.hload v) s = .next { s with h := v } := rfl
@[simp] theorem exec_add (s : State) : exec .add s = .next { s with table := dualSet s.table s.h } := rfl
@[simp] theorem exec_test (s : State) : exec .test s = .next { s with result := dualTest s.table s.h } := rfl
@[simp] theorem exec_popcnt (s : State) : exec .popcnt s = .next { s with count := BitVec.ofNat 17 (tablePopcount s.table) } := rfl
@[simp] theorem exec_rdword (w : WordAddr) (s : State) : exec (.rdword w) s = .next { s with rdata := arrRead s.table w } := rfl
@[simp] theorem exec_clear (s : State) : exec .clear s = .next { s with table := zeroTable } := rfl
@[simp] theorem exec_sclr (s : State) : exec .sclr s = .next (clearIllegal s) := rfl

end Sys2Proof.Machine
end

