-- ==== Sys2Proof/Laws/Step.lean ====
section
/-! SUPPORT. What one command, one accepted word and one step can do. -/

namespace Sys2Proof.Machine

/-- No command touches the port, `BUSY` or the free values' counter. -/
theorem exec_port {i : Instr} {s t : State} (h : exec i s = .next t) :
    t.busy = s.busy ∧ t.edges = s.edges ∧ t.held = s.held ∧ t.draw = s.draw := by
  cases i <;> simp only [exec_nop, exec_hinit, exec_hchar, exec_hload, exec_add, exec_test, exec_popcnt, exec_rdword,
    exec_clear, exec_sclr, Host.Outcome.next.injEq] at h <;> subst h <;> exact ⟨rfl, rfl, rfl, rfl⟩

/-- Every command keeps the table's canonical form. -/
theorem exec_wf {i : Instr} {s t : State} (hs : Memory.wf s.table = true) (h : exec i s = .next t) :
    Memory.wf t.table = true := by
  cases i <;> simp only [exec_nop, exec_hinit, exec_hchar, exec_hload, exec_add, exec_test, exec_popcnt, exec_rdword,
    exec_clear, exec_sclr, Host.Outcome.next.injEq] at h <;> subst h <;> first | exact hs | exact dualSet_wf hs _ | rfl

/-- No command but CLEAR turns a table bit from 1 to 0 (20_memory.md R48). -/
theorem exec_tableBit {i : Instr} {s t : State} (hs : Memory.wf s.table = true) (hi : i ≠ .clear)
    (h : exec i s = .next t) {j : BitIndex} (hj : tableBit s.table j = true) : tableBit t.table j = true := by
  cases i <;> simp only [exec_nop, exec_hinit, exec_hchar, exec_hload, exec_add, exec_test, exec_popcnt, exec_rdword,
    exec_clear, exec_sclr, Host.Outcome.next.injEq] at h <;> subst h <;>
    first
    | exact hj
    | exact absurd rfl hi
    | simp [tableBit_dualSet hs, hj]

theorem execCmd_cases {c : Cmd} {s t : State} (h : execCmd c s = .next t) :
    (∃ i, decode c = .ok i ∧ exec i s = .next t) ∨ (∃ k, decode c = .error k ∧ t = raiseIllegal k s) := by
  unfold execCmd at h
  split at h
  · exact .inl ⟨_, ‹_›, h⟩
  · exact .inr ⟨_, ‹_›, (Host.Outcome.next.inj h).symm⟩

theorem execCmd_of_decode {c : Cmd} {i : Instr} (h : decode c = .ok i) (s : State) : execCmd c s = exec i s := by
  simp [execCmd, h]

theorem execCmd_of_illegal {c : Cmd} {k : IllegalCause} (h : decode c = .error k) (s : State) :
    execCmd c s = .next (raiseIllegal k s) := by
  simp [execCmd, h]

/-- What a command does to the block depends on the block alone, not on the port. -/
theorem exec_sameBlock {i : Instr} {s s' : State} (h : SameBlock s s') :
    ∃ t t', exec i s = .next t ∧ exec i s' = .next t' ∧ SameBlock t t' := by
  obtain ⟨h1, h2, h3, h4, h5, h6, h7⟩ := h
  cases i <;> refine ⟨_, _, rfl, rfl, ?_⟩ <;> simp [SameBlock, h1, h2, h3, h4, h5, h6, h7]

theorem execCmd_sameBlock {c : Cmd} {s s' : State} (h : SameBlock s s') :
    ∃ t t', execCmd c s = .next t ∧ execCmd c s' = .next t' ∧ SameBlock t t' := by
  unfold execCmd
  split
  · exact exec_sameBlock h
  · obtain ⟨h1, h2, h3, h4, h5, h6, h7⟩ := h
    exact ⟨_, _, rfl, rfl, by simp [SameBlock, h1, h2, h3, h4, h5, h6, h7]⟩

/-- No accepted word touches the port, `BUSY` or the free values' counter. -/
theorem execCmd_port {c : Cmd} {s t : State} (h : execCmd c s = .next t) :
    t.busy = s.busy ∧ t.edges = s.edges ∧ t.held = s.held ∧ t.draw = s.draw := by
  rcases execCmd_cases h with ⟨i, _, h⟩ | ⟨k, _, rfl⟩
  · exact exec_port h
  · exact ⟨rfl, rfl, rfl, rfl⟩

theorem edgeWord_eq_some {e : Edge} {c : Cmd} : edgeWord e = some c ↔ e.valid = true ∧ edgeCmd e = c := by
  unfold edgeWord
  cases e.valid <;> simp

/-- Past the end of the list of edges the host keeps the hold rule (log entry 9). -/
theorem hostHolds_of_edges_nil {s : State} (h : s.edges = []) : HostHolds s := by
  intro w hw
  simp only [pins, h, hw]
  exact edgeWord_eq_some.2 ⟨rfl, by simp [edgeCmd, presentEdge, cmdWord_fields]⟩

/-- What a step that answers a next state did. -/
theorem step_cases {s t : State} (h : step s = .next t) :
    (edgeEvent s = .reset ∧ t = resetEdge s) ∨
      (∃ c, edgeEvent s = .accept c ∧ execCmd c (acceptEdge s) = .next t) ∨
      (edgeEvent s = .holdBroken ∧ t = brokenEdge s) ∨
      (edgeEvent s = .wait ∧ t = waitEdge s) := by
  unfold step at h
  split at h
  · exact .inl ⟨‹_›, (Host.Outcome.next.inj h).symm⟩
  · exact .inr (.inl ⟨_, ‹_›, h⟩)
  · exact .inr (.inr (.inl ⟨‹_›, (Host.Outcome.next.inj h).symm⟩))
  · exact .inr (.inr (.inr ⟨‹_›, (Host.Outcome.next.inj h).symm⟩))

/-- What stays within the limits of the spec when the host breaks the hold rule (R23, R28). -/
theorem brokenEdge_inv (s : State) : (brokenEdge s).Inv := by
  refine ⟨tableOfWords_wf _, ?_, ?_, ?_⟩
  · rw [brokenEdge_ill, brokenEdge_icause]
    rcases Config.brokenCause s.draw with _ | k
    · simp [causeField]
    · cases k <;> simp [causeField, causeCode]
  · rw [brokenEdge_icause]
    rcases Config.brokenCause s.draw with _ | k
    · simp [causeField]
    · cases k <;> simp [causeField, causeCode]
  · have h := (Config.brokenCount s.draw).isLt
    rw [brokenEdge_count, BitVec.toNat_ofNat]
    exact (Nat.mod_le _ _).trans (Nat.le_of_lt_succ h)

/-- A step consumes one edge. -/
theorem step_edges {s t : State} (h : step s = .next t) : t.edges = s.edges.tail := by
  rcases step_cases h with ⟨_, rfl⟩ | ⟨c, _, h⟩ | ⟨_, rfl⟩ | ⟨_, rfl⟩
  · rfl
  · exact (execCmd_port h).2.1
  · rfl
  · rfl

theorem edgeEvent_reset {s : State} (h : (pins s).rst = true) : edgeEvent s = .reset := by simp [edgeEvent, h]

theorem edgeEvent_accept {s : State} (h1 : (pins s).rst = false) (h2 : (pins s).valid = true) (h3 : s.busy = false) :
    edgeEvent s = .accept (edgeCmd (pins s)) := by simp [edgeEvent, cmdReady, h1, h2, h3]

@[simp] theorem execAll_nil (s : State) : execAll [] s = .next s := rfl

theorem execAll_cons {i : Instr} {is : List Instr} {s t : State} (h : exec i s = .next t) :
    execAll (i :: is) s = execAll is t := by simp [execAll, h]

theorem execAll_append {is js : List Instr} {s t : State} (h : execAll is s = .next t) :
    execAll (is ++ js) s = execAll js t := by
  induction is generalizing s with
  | nil => simp only [execAll_nil, Host.Outcome.next.injEq] at h; subst h; rfl
  | cons i is ih =>
    simp only [List.cons_append, execAll] at h ⊢
    split at h
    · exact ih h
    · cases h
    · cases h

end Sys2Proof.Machine
end

