-- ==== Sys2Proof/Tests/Slice0.lean ====
section
/-! SUPPORT. The model's own tests. Expected values are those of spec/95_test_vectors.md and of the encodings in
spec/30_encoding.md, named in each comment. The witness theorems show, for each statement with hypotheses, a concrete case
that meets them. -/

namespace Sys2Proof.Tests

open Sys2Proof.Machine

/-- The state an outcome goes on in, if it does. -/
def nextOf (o : Host.Outcome State Fault Refusal) : Option State :=
  match o with
  | .next s => some s
  | .fault _ => none
  | .refused _ => none

/-- One step of `s` with the word `cmd` on the port. -/
def stepOn (s : State) (cmd : Cmd) : Option State := nextOf (step (placeCmd cmd s))

/-- `S0` with `H = h`. -/
def withHash (h : HashWord) : State := { State.reset with h := h }

/-- The state after T-ADD-1 (95_test_vectors.md 2.4). -/
def afterAdd1 : State :=
  { withHash 0x8C20B6FD with table := [(560, 0x0000000100000000), (731, 0x2000000000000000)] }

/-! ## Assembler lines that are not well formed (R69) -/

theorem test_hchar_out_of_range : (AsmLine.hchar 0x10000).wellFormed = false := by decide
theorem test_hload_too_low : (AsmLine.hload (-2147483649)).wellFormed = false := by decide
theorem test_hload_too_high : (AsmLine.hload 4294967296).wellFormed = false := by decide
theorem test_rdword_out_of_range : (AsmLine.rdword 1024).wellFormed = false := by decide

/-- R69: `HLOAD -1` = `HLOAD 0xFFFFFFFF`. -/
theorem test_hload_signed : assemble (.hload (-1)) = some [.hload 0xFFFFFFFF] := by decide

/-! ## Decoding: words written out bit by bit from R62, R63 and R65 -/

theorem test_decode_nop : decode 0b000000000000000000000000000000000000 = .ok .nop := rfl
theorem test_decode_hinit : decode 0b000100000000000000000000000000000000 = .ok .hinit := rfl
theorem test_decode_hchar : decode 0b001000000000000000001000000000000001 = .ok (.hchar 0x8001) := rfl
theorem test_decode_hload : decode 0b001110000000000000000000000000000011 = .ok (.hload 0x80000003) := rfl
theorem test_decode_add : decode 0b010000000000000000000000000000000000 = .ok .add := rfl
theorem test_decode_test : decode 0b010100000000000000000000000000000000 = .ok .test := rfl
theorem test_decode_popcnt : decode 0b011000000000000000000000000000000000 = .ok .popcnt := rfl
theorem test_decode_rdword : decode 0b011100000000000000000000001000000001 = .ok (.rdword 513) := rfl
theorem test_decode_clear : decode 0b100000000000000000000000000000000000 = .ok .clear := rfl
theorem test_decode_sclr : decode 0b100100000000000000000000000000000000 = .ok .sclr := rfl
theorem test_decode_undefined : decode 0b101000000000000000000000000000000000 = .error .undefinedOpcode := rfl
theorem test_decode_reserved : decode 0b001000000000000000010000000000000000 = .error .reservedBit := rfl
theorem test_table_word : decodeTableWord 40 0x7000002DB = some (.rdword 731) := rfl
theorem test_table_word_too_wide : decodeTableWord 40 0x1000000000 = none := rfl

/-! ## One step of each command (95_test_vectors.md 2.2 to 2.7) -/

/-- T-SYS-1. -/
theorem test_nop : (stepOn afterAdd1 0x000000000).map (fun s => (s.h, s.table)) = some (afterAdd1.h, afterAdd1.table) := by
  decide
/-- T-HASH-1. -/
theorem test_hinit : (stepOn afterAdd1 0x100000000).map (·.h) = some 0 := by decide
/-- T-HASH-7: the largest inputs wrap. -/
theorem test_hchar_wraps : (stepOn (withHash 0xFFFFFFFF) 0x20000FFFF).map (·.h) = some 0x0000FFE0 := by decide
/-- T-HASH-12. -/
theorem test_hload : (stepOn (withHash 0x12345678) 0x3FFFFFFFF).map (·.h) = some 0xFFFFFFFF := by decide
/-- T-ADD-1. -/
theorem test_add : (stepOn (withHash 0x8C20B6FD) 0x400000000).map (·.table) = some afterAdd1.table := by decide
/-- T-ADD-4: a merged word update. -/
theorem test_add_merges : (stepOn (withHash 0x00050003) 0x400000000).map (·.table) = some [(0, 0x28)] := by decide
/-- T-TEST-2. -/
theorem test_test_hit : (stepOn afterAdd1 0x500000000).map (·.result) = some true := by decide
/-- T-TEST-4: only `idx_hi` is set. -/
theorem test_test_half :
    (stepOn { afterAdd1 with h := 0x8C200000, result := true } 0x500000000).map (·.result) = some false := by decide
/-- T-POP-2. -/
theorem test_popcnt : (stepOn afterAdd1 0x600000000).map (·.count) = some 2 := by decide +kernel
/-- T-RD-2. -/
theorem test_rdword : (stepOn afterAdd1 0x700000230).map (·.rdata) = some 0x0000000100000000 := by decide
/-- T-RD-4: bit 10 set. -/
theorem test_rdword_reserved :
    (stepOn afterAdd1 0x700000400).map (fun s => (s.rdata, s.ill, s.icause)) = some (0, true, 0b10) := by decide
/-- T-CLR-1: the table alone. -/
theorem test_clear :
    (stepOn afterAdd1 0x800000000).map (fun s => (s.table, s.h)) = some ([], 0x8C20B6FD) := by decide
/-- T-SYS-6. -/
theorem test_sclr : (stepOn { State.reset with ill := true, icause := 0b10 } 0x900000000).map (fun s => (s.ill, s.icause))
    = some (false, 0b00) := by decide
/-- T-SYS-7: SCLR with a reserved bit does not clear. -/
theorem test_sclr_reserved :
    (stepOn { State.reset with ill := true, icause := 0b01 } 0x900000001).map (fun s => (s.ill, s.icause))
    = some (true, 0b01) := by decide
/-- T-SYS-4. -/
theorem test_undefined_opcode : (stepOn State.reset 0xFFFFFFFFF).map (fun s => (s.ill, s.icause)) = some (true, 0b01) := by
  decide
/-- T-HASH-13: the character of an illegal HCHAR is lost. -/
theorem test_illegal_hchar : (stepOn (withHash 0x12345678) 0x200010041).map (fun s => (s.h, s.ill, s.icause))
    = some (0x12345678, true, 0b10) := by decide

/-! ## Indices and ports -/

/-- T-IDX-7: a logical shift. -/
theorem test_index_high : idxHi 0x80000000 = 32768 ∧ wordOf 32768 = 512 ∧ posOf 32768 = 0 := by decide
/-- E3: the indices of "other.com". -/
theorem test_index_words : wordOf (idxLo 0x8BF2E1A3) = 902 ∧ posOf (idxLo 0x8BF2E1A3) = 35 ∧
    wordOf (idxHi 0x8BF2E1A3) = 559 ∧ posOf (idxHi 0x8BF2E1A3) = 50 := by decide
/-- 95_test_vectors.md 2.1: the hash of "abc", in closed form and character by character. -/
theorem test_key_hash : keyHash [0x61, 0x62, 0x63] = 0x00017862 ∧
    hashStep (hashStep (hashStep 0 0x61) 0x62) 0x63 = 0x00017862 := by decide
/-- R7: the parameters agree. -/
theorem test_parameters : Config.nWords * Config.wordBits = Config.nBits ∧ Config.nBits = 2 ^ 16 := by decide
/-- R25: `ILL` is bit 1 and `ICAUSE` bits 3:2. -/
theorem test_status_word : packStatus false true 0b01 = 0x00000006 ∧ packStatus true false 0b00 = 0x00000001 := by decide
/-- R61: a busy block accepts nothing, and the word stays presented. -/
theorem test_busy_waits :
    (nextOf (step { State.reset with busy := true, edges := [presentEdge 0x400000000 false] })).map
      (fun s => (s.table, s.busy, s.held)) = some ([], true, some 0x400000000) := by decide
/-- R26: a command that needs more cycles leaves `BUSY = 1`. -/
theorem test_accept_busy :
    (nextOf (step { State.reset with edges := [presentEdge 0x300000001 false] })).map (fun s => (s.h, s.busy))
      = some (1, true) := by decide
/-- R160: reset takes priority over a command at the same edge. -/
theorem test_reset_edge :
    (nextOf (step { afterAdd1 with edges := [{ presentEdge 0x300000001 true with rst := true }] })).map
      (fun s => (s.h, s.table, s.busy)) = some (0, [], true) := by decide
/-- R176: after a withdrawn word the block goes on, with nothing held. -/
theorem test_hold_broken : (nextOf (step { State.reset with busy := true, held := some 0, edges := [idleEdge true] })).map
    (fun s => (s.edges, s.held)) = some ([], none) := rfl
/-- R30: `cmd_ready` is 0 while `BUSY = 1` and while `rst = 1`. -/
theorem test_not_ready : (outputs { State.reset with busy := true }).cmdReady = false ∧
    (outputs { State.reset with edges := [{ idleEdge true with rst := true }] }).cmdReady = false := ⟨rfl, rfl⟩

/-! ## Witnesses: the hypotheses of the statements can be met -/

theorem witness_EncodeOfDecodeIsTheWord : decode 0x38C20B6FD = .ok (.hload 0x8C20B6FD) := rfl
theorem witness_OpcodeMapIsExact : (0x2000FFFF#36 &&& Opcode.hload.maskWord ≠ Opcode.hload.matchWord) ∧
    0x20000FFFF#36 &&& Opcode.hchar.maskWord = Opcode.hchar.matchWord ∧
    ∀ o : Opcode, 0xA00000000#36 &&& o.maskWord ≠ o.matchWord := by
  refine ⟨by decide, by decide, fun o => ?_⟩
  cases o <;> decide
theorem witness_DecodeByOpcodeThenReservedBits : 0xA ≤ ((0xA00000000#36).extractLsb' 32 4).toNat ∧
    ((0x900000001#36).extractLsb' 32 4).toNat < 0xA ∧
    0x900000001#36 &&& Opcode.sclr.maskWord ≠ Opcode.sclr.matchWord ∧
    0x900000000#36 &&& Opcode.sclr.maskWord = Opcode.sclr.matchWord := by decide
theorem witness_AssemblerRanges : assemble (.hchar 0xFFFF) = some [.hchar 0xFFFF] ∧ assemble (.hchar 0x10000) = none ∧
    assemble (.hload (-2147483648)) = some [.hload 0x80000000] ∧
    assemble (.hload 0xFFFFFFFF) = some [.hload 0xFFFFFFFF] ∧ assemble (.hload 0x100000000) = none ∧
    assemble (.hload (-2147483649)) = none ∧ assemble (.rdword 1023) = some [.rdword 1023] ∧
    assemble (.rdword 1024) = none := by decide
theorem witness_ResetEdgeTakesPriority :
    (pins { afterAdd1 with edges := [{ idleEdge true with rst := true }] }).rst = true := rfl
/-- A reset edge at which the host presents an ADD, reset again, and a sweep of two more edges; the host holds the word. -/
def resetWhilePresenting : State :=
  { afterAdd1 with busy := true, edges := { presentEdge 0x400000000 true with rst := true } ::
      ([{ presentEdge 0x400000000 true with rst := true }, presentEdge 0x400000000 false] ++
        presentEdge 0x400000000 true :: []) }

theorem witness_ResetAndSweepEndInS0 : ∃ (e last : Edge) (sweep : List Edge),
    resetWhilePresenting.edges = e :: (sweep ++ last :: []) ∧ e.rst = true ∧ e.valid = true ∧
    (∀ x ∈ sweep, x.rst = true ∨ x.done = false) ∧ last.rst = false ∧ last.done = true ∧
    HoldsThrough (edgeWord e) (sweep ++ [last]) :=
  ⟨_, _, _, rfl, rfl, rfl, by decide, rfl, rfl, ⟨fun _ h => h, fun _ h => h, fun _ h => h, trivial⟩⟩
theorem witness_reserved_arguments : (1 : BitVec 32) ≠ 0 ∧ (0x00010000#32).extractLsb' 16 16 ≠ 0 ∧
    (0x00000400#32).extractLsb' 10 22 ≠ 0 := by decide
theorem witness_canonical_table : Memory.wf afterAdd1.table = true := by decide
theorem witness_AddMergesOneWord :
    (withHash 0x00070007).h.extractLsb' 22 10 = (withHash 0x00070007).h.extractLsb' 6 10 ∧
    (withHash 0x00070007).h.extractLsb' 16 16 = (withHash 0x00070007).h.extractLsb' 0 16 ∧
    (withHash 0x00050003).h.extractLsb' 22 10 = (withHash 0x00050003).h.extractLsb' 6 10 ∧
    (withHash 0x00050003).table = zeroTable := by decide
theorem witness_all_zero_table : ∀ w, arrRead (withHash 0).table w = 0 := fun _ => rfl

/-- The all-one table (T-POP-3). -/
def fullTable : Memory := (List.range 1024).map fun a => (a, BitVec.allOnes 64)

theorem witness_all_one_table : ∀ w, arrRead fullTable w = BitVec.allOnes 64 := by
  have key : ∀ (l : List Nat) (k : Nat), k ∈ l →
      lookupWord (l.map fun a => (a, BitVec.allOnes 64)) k = BitVec.allOnes 64 := by
    intro l k
    induction l with
    | nil => simp
    | cons a l ih =>
      intro h
      by_cases hak : a = k
      · simp only [List.map_cons, lookupWord, if_pos hak]
      · simp only [List.map_cons, lookupWord, if_neg hak]
        exact ih ((List.mem_cons.1 h).resolve_left (Ne.symm hak))
  exact fun w => key _ _ (List.mem_range.2 w.isLt)

theorem witness_SweepInAnyOrderLeavesZero :
    Memory.wf afterAdd1.table = true ∧ ∀ w : WordAddr, w ∈ (List.range 1024).reverse.map (BitVec.ofNat 10) := by
  refine ⟨by decide, fun w => List.mem_map.2 ⟨w.toNat, ?_, by simp⟩⟩
  exact List.mem_reverse.2 (List.mem_range.2 w.isLt)
theorem witness_IllegalWordRaises : decode 0xB12345678 = .error .undefinedOpcode ∧
    decode 0x400000001 = .error .reservedBit := ⟨rfl, rfl⟩
theorem witness_IndexCornerCases : Memory.wf (withHash 0xFFFF).table = true ∧ (withHash 0xFFFF).h.toNat < 65536 := by decide
theorem witness_TableBitsNeverClear : ∃ t, Memory.wf (placeCmd 0x400000000 afterAdd1).table = true ∧
    step (placeCmd 0x400000000 afterAdd1) = .next t ∧ edgeEvent (placeCmd 0x400000000 afterAdd1) ≠ .reset ∧
    edgeEvent (placeCmd 0x400000000 afterAdd1) ≠ .accept 0x800000000 ∧
    edgeEvent (placeCmd 0x400000000 afterAdd1) ≠ .holdBroken :=
  ⟨_, by decide, rfl, by decide, by decide, by decide⟩
theorem witness_NoFalseNegatives : ∃ u, Memory.wf afterAdd1.table = true ∧
    Instr.clear ∉ [Instr.hload 5, .add, .hload 0x8C20B6FD] ∧
    execAll (.add :: [.hload 5, .add, .hload 0x8C20B6FD]) afterAdd1 = .next u ∧ u.h = afterAdd1.h :=
  ⟨_, by decide, by decide, rfl, rfl⟩
theorem witness_AddedKeyMightBeContained :
    Memory.wf afterAdd1.table = true ∧ Instr.clear ∉ [Instr.hload 5, .add, .popcnt] := by decide
theorem witness_FillNeverDecreases : ∃ u, Memory.wf afterAdd1.table = true ∧ Instr.clear ∉ [Instr.hload 5, .add] ∧
    execAll [.hload 5, .add] afterAdd1 = .next u := ⟨_, by decide, by decide, rfl⟩
theorem witness_FillOfManyAdds : [(0x8C20B6FD : HashWord), 0] ≠ [] := by decide
theorem witness_StepRunsTheDecodedCommand : edgeEvent (placeCmd 0x400000000 afterAdd1) = .accept 0x400000000 ∧
    decode 0x400000000 = .ok .add ∧ edgeEvent (placeCmd 0xA00000000 afterAdd1) = .accept 0xA00000000 ∧
    decode 0xA00000000 = .error .undefinedOpcode := ⟨rfl, rfl, rfl, rfl⟩
theorem witness_PlacedWordRunsNext : 0x7000003FF < 2 ^ 36 ∧ 36 ≤ 40 ∧
    decodeTableWord 40 0x7000003FF = some (.rdword 1023) := ⟨by decide, by decide, rfl⟩
/-- A busy block whose host holds an ADD, with these coming edges. -/
def holdingAdd (es : List Edge) : State := { afterAdd1 with busy := true, held := some 0x400000000, edges := es }

theorem witness_NothingAcceptedNothingChanges :
    (pins (holdingAdd [presentEdge 0x400000000 true])).rst = false ∧
    (∀ c, edgeEvent (holdingAdd [presentEdge 0x400000000 true]) ≠ .accept c) ∧
    HostHolds (holdingAdd [presentEdge 0x400000000 true]) := ⟨rfl, fun _ => nofun, fun _ h => h⟩
theorem witness_BrokenHoldGoesOn : edgeEvent (holdingAdd [idleEdge true]) = .holdBroken ∧
    edgeEvent (holdingAdd [presentEdge 0x500000000 true]) = .holdBroken ∧
    edgeEvent (holdingAdd [presentEdge 0x400000000 true]) = .wait ∧
    edgeEvent { holdingAdd [presentEdge 0x500000000 true] with busy := false } = .accept 0x500000000 ∧
    edgeEvent (holdingAdd [{ idleEdge true with rst := true }]) = .reset := ⟨rfl, rfl, rfl, rfl, rfl⟩
theorem witness_BrokenHoldThenAccept_withdrawn : ∃ (gap : List Edge) (last x : Edge),
    edgeEvent (holdingAdd (idleEdge false :: (gap ++ last :: x :: []))) = .holdBroken ∧ (idleEdge false).valid = false ∧
    (∀ y ∈ gap ++ [last], y.rst = false ∧ y.valid = false) ∧ last.done = true ∧ x.rst = false ∧
    edgeWord x = some 0x500000000 :=
  ⟨[idleEdge false], idleEdge true, presentEdge 0x500000000 false, rfl, rfl, by decide, rfl, rfl, rfl⟩
theorem witness_BrokenHoldThenAccept_changed : ∃ (waits : List Edge) (last x : Edge),
    edgeEvent (holdingAdd (presentEdge 0x500000000 false :: (waits ++ last :: x :: []))) = .holdBroken ∧
    edgeWord (presentEdge 0x500000000 false) = some 0x500000000 ∧
    (∀ y ∈ waits ++ [last, x], y.rst = false ∧ edgeWord y = some 0x500000000) ∧ last.done = true :=
  ⟨[presentEdge 0x500000000 false], presentEdge 0x500000000 true, presentEdge 0x500000000 false, rfl, rfl, by decide, rfl⟩
theorem witness_BrokenHoldThenReset :
    edgeEvent (holdingAdd [presentEdge 0x500000000 false, { idleEdge true with rst := true }]) = .holdBroken ∧
    ({ idleEdge true with rst := true } : Edge).rst = true := ⟨rfl, rfl⟩
theorem witness_ConformingHostMeetsNoOpenEdge : HostHolds (holdingAdd []) ∧ HostHolds State.reset ∧
    HostHolds (holdingAdd [{ presentEdge 0x400000000 true with rst := true }]) :=
  ⟨fun _ h => h, fun _ => nofun, fun _ h => h⟩
theorem witness_idle_state : afterAdd1.busy = false ∧ (pins afterAdd1).rst = false := ⟨rfl, rfl⟩
theorem witness_OnlyTheseEventsWriteARegister : ∃ t, step (placeCmd 0x100000000 afterAdd1) = .next t ∧
    edgeEvent (placeCmd 0x100000000 afterAdd1) ≠ .reset ∧ edgeEvent (placeCmd 0x100000000 afterAdd1) ≠ .holdBroken ∧
    t.h ≠ (placeCmd 0x100000000 afterAdd1).h := ⟨_, rfl, by decide, by decide, by decide⟩
theorem witness_IllIsSticky : ∃ t u, step (placeCmd 0xA00000000 State.reset) = .next t ∧ State.reset.ill = false ∧
    edgeEvent (placeCmd 0xA00000000 State.reset) ≠ .holdBroken ∧ t.ill = true ∧
    step (placeCmd 0x900000000 t) = .next u ∧ edgeEvent (placeCmd 0x900000000 t) ≠ .holdBroken ∧ u.ill = false :=
  ⟨_, _, rfl, rfl, by decide, rfl, rfl, by decide, rfl⟩
theorem witness_StepKeepsInvariant : ∃ t, (placeCmd 0xA00000000 afterAdd1).Inv ∧
    step (placeCmd 0xA00000000 afterAdd1) = .next t := by
  refine ⟨_, ⟨?_, ?_, ?_, ?_⟩, rfl⟩ <;> decide
/-- HLOAD that takes two edges; an ADD is presented at the first of them and held until it is accepted. -/
def loadThenAdd : State :=
  { State.reset with edges := [presentEdge 0x300000007 false, presentEdge 0x400000000 true, presentEdge 0x400000000 true] }

theorem witness_RunIsTheAcceptedWordsInOrder : (∀ e ∈ loadThenAdd.edges, e.rst = false) ∧
    Along (fun u => edgeEvent u ≠ .holdBroken) 3 loadThenAdd ∧
    acceptedCmds 3 loadThenAdd = [0x300000007, 0x400000000] := by
  refine ⟨by decide, ⟨nofun, fun t h => ?_⟩, rfl⟩
  cases h
  refine ⟨nofun, fun t h => ?_⟩
  cases h
  exact ⟨nofun, fun _ _ => trivial⟩
theorem witness_PresentedWordsAreAcceptedOnceInOrder : Along HostHolds 3 loadThenAdd ∧
    presentedCmds 3 loadThenAdd = [0x300000007, 0x400000000] := by
  refine ⟨⟨fun _ => nofun, fun t h => ?_⟩, rfl⟩
  cases h
  refine ⟨fun _ => nofun, fun t h => ?_⟩
  cases h
  exact ⟨fun _ h => h, fun _ _ => trivial⟩
/-- Two words: the first after a pause, the second presented while `BUSY = 1`. -/
def twoTurns : List Turn :=
  [{ word := 0x300000007, quiet := 0, waits := 0, pause := 1 }, { word := 0x400000000, quiet := 1, waits := 2, pause := 0 }]

theorem witness_PresentedWordsAllComplete : State.reset.busy = decide (busyBefore 2 twoTurns ≠ 0) ∧
    State.reset.held = none ∧ driveEdges 2 twoTurns = [idleEdge false, presentEdge 0x300000007 false, idleEdge false,
      presentEdge 0x400000000 false, presentEdge 0x400000000 true, presentEdge 0x400000000 false, idleEdge false,
      idleEdge true] := ⟨rfl, rfl, rfl⟩

end Sys2Proof.Tests
end

/-! ## What one command, one accepted word and one edge can write -/

namespace Sys2Proof.Machine

/-- What a command that answers a next state did: each writes one register or the table, NOP none (10_state.md R36). -/
theorem exec_cases {i : Instr} {s t : State} (h : exec i s = .next t) :
    (i = .nop ∧ t = s) ∨
      ((i = .hinit ∨ (∃ x, i = .hchar x) ∨ ∃ v, i = .hload v) ∧ ∃ v, t = { s with h := v }) ∨
      (i = .test ∧ ∃ b, t = { s with result := b }) ∨
      (i = .popcnt ∧ t = { s with count := BitVec.ofNat 17 (tablePopcount s.table) }) ∨
      ((∃ w, i = .rdword w) ∧ ∃ v, t = { s with rdata := v }) ∨
      ((i = .add ∨ i = .clear) ∧ ∃ m, t = { s with table := m }) ∨
      (i = .sclr ∧ t = clearIllegal s) := by
  cases i with
  | nop => exact .inl ⟨rfl, (Host.Outcome.next.inj h).symm⟩
  | hinit => exact .inr (.inl ⟨.inl rfl, _, (Host.Outcome.next.inj h).symm⟩)
  | hchar c => exact .inr (.inl ⟨.inr (.inl ⟨c, rfl⟩), _, (Host.Outcome.next.inj h).symm⟩)
  | hload v => exact .inr (.inl ⟨.inr (.inr ⟨v, rfl⟩), _, (Host.Outcome.next.inj h).symm⟩)
  | test => exact .inr (.inr (.inl ⟨rfl, _, (Host.Outcome.next.inj h).symm⟩))
  | popcnt => exact .inr (.inr (.inr (.inl ⟨rfl, (Host.Outcome.next.inj h).symm⟩)))
  | rdword w => exact .inr (.inr (.inr (.inr (.inl ⟨⟨w, rfl⟩, _, (Host.Outcome.next.inj h).symm⟩))))
  | add => exact .inr (.inr (.inr (.inr (.inr (.inl ⟨.inl rfl, _, (Host.Outcome.next.inj h).symm⟩)))))
  | clear => exact .inr (.inr (.inr (.inr (.inr (.inl ⟨.inr rfl, _, (Host.Outcome.next.inj h).symm⟩)))))
  | sclr => exact .inr (.inr (.inr (.inr (.inr (.inr ⟨rfl, (Host.Outcome.next.inj h).symm⟩)))))

/-- The commands that can change each register and the table (10_state.md R21 to R24, R47). -/
theorem exec_writes {i : Instr} {s t : State} (h : exec i s = .next t) :
    (t.h ≠ s.h → i = .hinit ∨ (∃ x, i = .hchar x) ∨ ∃ v, i = .hload v) ∧
      (t.result ≠ s.result → i = .test) ∧ (t.count ≠ s.count → i = .popcnt) ∧
      (t.rdata ≠ s.rdata → ∃ w, i = .rdword w) ∧ (t.table ≠ s.table → i = .add ∨ i = .clear) := by
  obtain ⟨-, rfl⟩ | ⟨hi, v, rfl⟩ | ⟨hi, b, rfl⟩ | ⟨hi, rfl⟩ | ⟨hi, v, rfl⟩ | ⟨hi, m, rfl⟩ | ⟨-, rfl⟩ := exec_cases h
  · simp
  · simp [hi]
  · simp [hi]
  · simp [hi]
  · simp [hi]
  · simp [hi]
  · simp

/-- Only SCLR writes the status fields (42_system.md R131). -/
theorem exec_status {i : Instr} {s t : State} (h : exec i s = .next t) :
    (t.ill = s.ill ∧ t.icause = s.icause) ∨ i = .sclr := by
  obtain ⟨-, rfl⟩ | ⟨-, v, rfl⟩ | ⟨-, b, rfl⟩ | ⟨-, rfl⟩ | ⟨-, v, rfl⟩ | ⟨-, m, rfl⟩ | ⟨hi, rfl⟩ := exec_cases h
  · exact .inl ⟨rfl, rfl⟩
  · exact .inl ⟨rfl, rfl⟩
  · exact .inl ⟨rfl, rfl⟩
  · exact .inl ⟨rfl, rfl⟩
  · exact .inl ⟨rfl, rfl⟩
  · exact .inl ⟨rfl, rfl⟩
  · exact .inr hi

theorem sameBlock_waitEdge (s : State) : SameBlock s (waitEdge s) := ⟨rfl, rfl, rfl, rfl, rfl, rfl, rfl⟩

theorem sameBlock_acceptEdge (s : State) : SameBlock s (acceptEdge s) := ⟨rfl, rfl, rfl, rfl, rfl, rfl, rfl⟩

theorem sameBlock_reset_resetEdge (s : State) : SameBlock State.reset (resetEdge s) :=
  ⟨rfl, rfl, rfl, rfl, rfl, rfl, rfl⟩

/-- No accepted word fails (60_exceptions.md R140). -/
theorem execCmd_next (c : Cmd) (s : State) : ∃ t, execCmd c s = .next t := by
  obtain ⟨t, _, ht, -⟩ := execCmd_sameBlock (c := c) (s := s) (s' := s) ⟨rfl, rfl, rfl, rfl, rfl, rfl, rfl⟩
  exact ⟨t, ht⟩

/-- A legal word matches the row of its command in the opcode map (30_encoding.md R65). -/
theorem matches_row_of_decode {c : Cmd} {i : Instr} (h : decode c = .ok i) :
    c &&& i.opcode.maskWord = i.opcode.matchWord := by
  unfold decode at h
  split at h
  · cases h
  · split at h
    · cases h
      rwa [buildInstr_opcode]
    · cases h

/-- SCLR has one word, since its row fixes every bit (30_encoding.md R65). -/
theorem eq_sclr_word_of_decode {c : Cmd} (h : decode c = .ok .sclr) : c = 0x900000000 := by
  have hrow : c &&& BitVec.allOnes 36 = 0x900000000 := matches_row_of_decode h
  rwa [BitVec.and_allOnes] at hrow

/-! ## The four events of an edge -/

theorem step_of_reset {s : State} (h : edgeEvent s = .reset) : step s = .next (resetEdge s) := by
  simp only [step, h]

theorem step_of_accept {s : State} {c : Cmd} (h : edgeEvent s = .accept c) : step s = execCmd c (acceptEdge s) := by
  simp only [step, h]

theorem step_of_holdBroken {s : State} (h : edgeEvent s = .holdBroken) : step s = .next (brokenEdge s) := by
  simp only [step, h]

theorem step_of_wait {s : State} (h : edgeEvent s = .wait) : step s = .next (waitEdge s) := by
  simp only [step, h]

/-- The step answers a next state from every state. -/
theorem step_next (s : State) : ∃ t, step s = .next t := by
  cases h : edgeEvent s with
  | reset => exact ⟨_, step_of_reset h⟩
  | accept c => rw [step_of_accept h]; exact execCmd_next c _
  | holdBroken => exact ⟨_, step_of_holdBroken h⟩
  | wait => exact ⟨_, step_of_wait h⟩

theorem holdViolated_iff {s : State} : holdViolated s = true ↔ ∃ w, s.held = some w ∧ edgeWord (pins s) ≠ some w := by
  unfold holdViolated
  cases s.held with
  | none => simp
  | some w => simp [edgeWord_eq_some, imp_iff_not_or]

theorem hostHolds_iff {s : State} : HostHolds s ↔ holdViolated s = false := by
  rw [← Bool.not_eq_true, holdViolated_iff, HostHolds]
  push Not
  rfl

theorem edgeEvent_eq_reset_iff {s : State} : edgeEvent s = .reset ↔ (pins s).rst = true := by
  unfold edgeEvent
  split_ifs <;> simp_all

/-- When the hold rule counts as broken (70_reset_and_hazards.md R176). -/
theorem edgeEvent_eq_holdBroken_iff {s : State} :
    edgeEvent s = .holdBroken ↔
      (pins s).rst = false ∧ ¬ ((pins s).valid = true ∧ s.busy = false) ∧ holdViolated s = true := by
  unfold edgeEvent cmdReady
  split_ifs <;> simp_all

/-- Without reset, an acceptance or a broken hold, the edge is a plain wait. -/
theorem edgeEvent_eq_wait {s : State} (hrst : (pins s).rst = false) (hacc : ∀ c, edgeEvent s ≠ .accept c)
    (hhold : HostHolds s) : edgeEvent s = .wait := by
  cases h : edgeEvent s with
  | reset => exact absurd (edgeEvent_eq_reset_iff.1 h) (by simp [hrst])
  | accept c => exact absurd h (hacc c)
  | holdBroken =>
    obtain ⟨-, -, hbroken⟩ := edgeEvent_eq_holdBroken_iff.1 h
    exact absurd hbroken (by simp [hostHolds_iff.1 hhold])
  | wait => rfl

/-! ## The invariant -/

/-- The invariant speaks of the registers and the table alone. -/
theorem State.Inv.of_sameBlock {s t : State} (hs : s.Inv) (h : SameBlock s t) : t.Inv := by
  obtain ⟨-, -, hcount, -, hill, hicause, htable⟩ := h
  simpa only [State.Inv, hcount, hill, hicause, htable] using hs

theorem reset_inv : State.reset.Inv := ⟨rfl, by simp [State.reset], by simp [State.reset], by simp [State.reset]⟩

theorem causeCode_ne_zero (k : IllegalCause) : causeCode k ≠ 0b00#2 := by cases k <;> decide

theorem causeCode_ne_three (k : IllegalCause) : causeCode k ≠ 0b11#2 := by cases k <;> decide

/-- An illegal word records a cause, the first one kept, so `ILL = 1` goes with `ICAUSE ≠ 0b00` (10_state.md R28). -/
theorem raiseIllegal_inv (k : IllegalCause) {s : State} (hs : s.Inv) : (raiseIllegal k s).Inv := by
  obtain ⟨hwf, hiff, hne, hcount⟩ := hs
  cases hill : s.ill with
  | false => exact ⟨hwf, by simp [hill, causeCode_ne_zero], by simp [hill, causeCode_ne_three], hcount⟩
  | true => exact ⟨hwf, by simpa [hill] using hiff, by simpa [hill] using hne, hcount⟩

theorem clearIllegal_inv {s : State} (hs : s.Inv) : (clearIllegal s).Inv := by
  obtain ⟨hwf, -, -, hcount⟩ := hs
  exact ⟨hwf, by simp, by simp, hcount⟩

/-- Every command keeps the invariant; POPCNT does because the table has 65,536 bits (10_state.md R23). -/
theorem exec_inv {i : Instr} {s t : State} (hs : s.Inv) (h : exec i s = .next t) : t.Inv := by
  obtain ⟨hwf, hiff, hne, hcount⟩ := hs
  have hwf' : Memory.wf t.table = true := exec_wf hwf h
  obtain ⟨-, rfl⟩ | ⟨-, v, rfl⟩ | ⟨-, b, rfl⟩ | ⟨-, rfl⟩ | ⟨-, v, rfl⟩ | ⟨-, m, rfl⟩ | ⟨-, rfl⟩ := exec_cases h
  · exact ⟨hwf, hiff, hne, hcount⟩
  · exact ⟨hwf, hiff, hne, hcount⟩
  · exact ⟨hwf, hiff, hne, hcount⟩
  · exact ⟨hwf, hiff, hne, (count_toNat s.table).trans_le (tableOnes_le s.table)⟩
  · exact ⟨hwf, hiff, hne, hcount⟩
  · exact ⟨hwf', hiff, hne, hcount⟩
  · exact clearIllegal_inv ⟨hwf, hiff, hne, hcount⟩

theorem execCmd_inv {c : Cmd} {s t : State} (hs : s.Inv) (h : execCmd c s = .next t) : t.Inv := by
  obtain ⟨i, -, hi⟩ | ⟨k, -, rfl⟩ := execCmd_cases h
  · exact exec_inv hs hi
  · exact raiseIllegal_inv k hs

/-- Settles O51: each of the four events of an edge keeps the invariant. -/
theorem stepKeepsInvariant : Obligations.StepKeepsInvariant := by
  intro s t hs h
  obtain ⟨-, rfl⟩ | ⟨c, -, hc⟩ | ⟨-, rfl⟩ | ⟨-, rfl⟩ := step_cases h
  · exact reset_inv.of_sameBlock (sameBlock_reset_resetEdge s)
  · exact execCmd_inv (hs.of_sameBlock (sameBlock_acceptEdge s)) hc
  · exact brokenEdge_inv s
  · exact hs.of_sameBlock (sameBlock_waitEdge s)

/-! ## Edges that accept nothing -/

/-- Settles O44: the edge is a plain wait, whose frame is the whole block. -/
theorem nothingAcceptedNothingChanges : Obligations.NothingAcceptedNothingChanges := by
  intro s hrst hacc hhold
  have hwait : edgeEvent s = .wait := edgeEvent_eq_wait hrst hacc hhold
  exact ⟨waitEdge s, step_of_wait hwait, sameBlock_waitEdge s, rfl, rfl⟩

/-- Settles O45: the step is total, and the state after a broken hold stays within the invariant. -/
theorem brokenHoldGoesOn : Obligations.BrokenHoldGoesOn := by
  intro s
  refine ⟨step_next s, ?_, fun h => ⟨brokenEdge s, step_of_holdBroken h, brokenEdge_inv s, rfl, rfl⟩⟩
  rw [edgeEvent_eq_holdBroken_iff, holdViolated_iff]
  simp only [ne_eq, edgeWord_eq_some]
  rfl

/-! ## The outputs -/

/-- The bits of the packed status word; past the two bits of `ICAUSE` they read 0 (10_state.md R25). -/
theorem packStatus_getLsbD (busy ill : Bool) (icause : BitVec 2) (k : Nat) :
    (packStatus busy ill icause).getLsbD k =
      match k with
      | 0 => busy
      | 1 => ill
      | j + 2 => icause.getLsbD j := by
  rw [packStatus, BitVec.getLsbD_append, BitVec.getLsbD_append, BitVec.getLsbD_append]
  match k with
  | 0 => simp
  | 1 => simp
  | j + 2 =>
    by_cases hj : j < 2
    · simp [hj]
    · simp [hj, BitVec.getLsbD_of_ge icause j (by omega)]

theorem packStatus_icause (busy ill : Bool) (icause : BitVec 2) :
    (packStatus busy ill icause).extractLsb' 2 2 = icause := by
  refine BitVec.eq_of_getLsbD_eq fun i hi => ?_
  rw [BitVec.getLsbD_extractLsb', Nat.add_comm, packStatus_getLsbD]
  simp [hi]

theorem packStatus_hardwired (busy ill : Bool) (icause : BitVec 2) {k : Nat} (hk : 4 ≤ k) :
    (packStatus busy ill icause).getLsbD k = false := by
  obtain ⟨j, rfl⟩ := Nat.exists_eq_add_of_le' hk
  rw [packStatus_getLsbD]
  exact BitVec.getLsbD_of_ge icause (j + 2) (by omega)

@[simp] theorem outputs_cmdReady (s : State) : (outputs s).cmdReady = (!(pins s).rst && !s.busy) := by
  unfold outputs
  split <;> rfl

/-- Whatever the state, `status` is in the layout of 10_state.md R25 and its BUSY bit is what the host sees. -/
theorem outputs_status (s : State) : ∃ ill icause, (outputs s).status = packStatus (busyNow s) ill icause := by
  unfold outputs
  cases busyNow s with
  | false => exact ⟨_, _, rfl⟩
  | true => exact ⟨_, _, rfl⟩

/-- With `BUSY = 0` the outputs are the registers (10_state.md R30). -/
theorem outputs_of_idle {s : State} (hbusy : s.busy = false) (hrst : (pins s).rst = false) :
    outputs s = { cmdReady := cmdReady s, status := packStatus false s.ill s.icause, hash := s.h, idxLo := idxLo s.h,
                  idxHi := idxHi s.h, result := BitVec.ofBool s.result, count := s.count, rdata := s.rdata } := by
  have hidle : busyNow s = false := by simp [busyNow, hbusy, hrst]
  simp [outputs, hidle]

/-- Settles O47: each field of the packed status word. -/
theorem statusLayout : Obligations.StatusLayout := by
  intro s
  obtain ⟨ill, icause, hstatus⟩ := outputs_status s
  refine ⟨by rw [hstatus, packStatus_getLsbD, busyNow], fun k hk => by rw [hstatus, packStatus_hardwired _ _ _ hk], ?_⟩
  intro hbusy hrst
  rw [outputs_of_idle hbusy hrst]
  exact ⟨packStatus_getLsbD _ _ _ 1, packStatus_icause _ _ _⟩

/-- Settles O48: `cmd_ready` in every state, the registers when idle. -/
theorem idleOutputsShowRegisters : Obligations.IdleOutputsShowRegisters := by
  intro s
  refine ⟨outputs_cmdReady s, fun hbusy hrst => ?_⟩
  rw [outputs_of_idle hbusy hrst]
  refine ⟨by simp [cmdReady, hbusy, hrst], rfl, idxLo_eq _, idxHi_eq _, ?_, rfl, rfl⟩
  cases s.result <;> rfl

/-! ## Which events write what -/

/-- Settles O49: an accepted legal word writes what its command writes, and the other events write none of these. -/
theorem onlyTheseEventsWriteARegister : Obligations.OnlyTheseEventsWriteARegister := by
  intro s t h hreset hbroken
  obtain ⟨he, -⟩ | ⟨c, he, hc⟩ | ⟨he, -⟩ | ⟨-, rfl⟩ := step_cases h
  · exact absurd he hreset
  · obtain ⟨i, hd, hi⟩ | ⟨k, -, rfl⟩ := execCmd_cases hc
    · obtain ⟨hh, hres, hcnt, hrd, htab⟩ := exec_writes hi
      refine ⟨fun hne => ⟨c, i, he, hd, hh hne⟩, fun hne => ⟨c, he, hres hne ▸ hd⟩,
        fun hne => ⟨c, he, hcnt hne ▸ hd⟩, fun hne => ?_, fun hne => ⟨c, i, he, hd, htab hne⟩⟩
      obtain ⟨w, rfl⟩ := hrd hne
      exact ⟨c, w, he, hd⟩
    · simp
  · exact absurd he hbroken
  · simp

/-- Where the hold rule is kept, `ILL` rises only by an accepted illegal word (10_state.md R27). -/
theorem step_sets_ill {s t : State} (h : step s = .next t) (hbroken : edgeEvent s ≠ .holdBroken)
    (hs : s.ill = false) (ht : t.ill = true) : ∃ c k, edgeEvent s = .accept c ∧ decode c = .error k := by
  obtain ⟨-, rfl⟩ | ⟨c, he, hc⟩ | ⟨he, -⟩ | ⟨-, rfl⟩ := step_cases h
  · simp at ht
  · obtain ⟨i, -, hi⟩ | ⟨k, hd, -⟩ := execCmd_cases hc
    · obtain ⟨hill, -⟩ | rfl := exec_status hi
      · simp [hill, hs] at ht
      · cases hi
        simp at ht
    · exact ⟨c, k, he, hd⟩
  · exact absurd he hbroken
  · simp [hs] at ht

/-- Where the hold rule is kept, a recorded cause is lost only by reset or SCLR (10_state.md R28). -/
theorem step_clears_ill {s t : State} (h : step s = .next t) (hbroken : edgeEvent s ≠ .holdBroken)
    (hs : s.ill = true) (ht : t.ill = false ∨ t.icause ≠ s.icause) :
    edgeEvent s = .reset ∨ edgeEvent s = .accept 0x900000000 := by
  obtain ⟨he, -⟩ | ⟨c, he, hc⟩ | ⟨he, -⟩ | ⟨-, rfl⟩ := step_cases h
  · exact .inl he
  · obtain ⟨i, hd, hi⟩ | ⟨k, -, rfl⟩ := execCmd_cases hc
    · obtain ⟨hill, hicause⟩ | rfl := exec_status hi
      · simp [hill, hicause, hs] at ht
      · exact .inr (eq_sclr_word_of_decode hd ▸ he)
    · simp [hs] at ht
  · exact absurd he hbroken
  · simp [hs] at ht

/-- Settles O50; `ILL` is not among what the port's side of an edge reads. -/
theorem illIsSticky : Obligations.IllIsSticky :=
  fun _ _ h => ⟨step_sets_ill h, step_clears_ill h, fun _ => rfl⟩

/-! ## The state after reset -/

/-- Settles O9. -/
theorem resetValues : Obligations.ResetValues :=
  ⟨rfl, rfl, rfl, rfl, rfl, rfl, rfl, arrRead_zeroTable, resetEdge_busy⟩

/-- Settles O10. -/
theorem resetMeetsInvariant : Obligations.ResetMeetsInvariant := reset_inv

end Sys2Proof.Machine

/-! ## The sweep of CLEAR and of reset -/

namespace Sys2Proof.Machine

/-- A read after a per-word clear. -/
theorem arrRead_arrClear {t : Memory} (h : Memory.wf t = true) (w u : WordAddr) :
    arrRead (arrClear t w) u = if u = w then 0 else arrRead t u :=
  arrRead_arrWrite h w u 0

/-- A sweep over any list of addresses keeps the canonical form, zeroes the words it visits and leaves the others. -/
theorem foldl_arrClear (order : List WordAddr) {t : Memory} (h : Memory.wf t = true) :
    Memory.wf (order.foldl arrClear t) = true ∧
      ∀ u, arrRead (order.foldl arrClear t) u = if u ∈ order then 0 else arrRead t u := by
  induction order generalizing t with
  | nil => exact ⟨h, fun u => by simp⟩
  | cons w rest ih =>
    obtain ⟨hwf, hread⟩ := ih (arrClear_wf h w)
    refine ⟨hwf, fun u => ?_⟩
    rw [List.foldl_cons, hread, arrRead_arrClear h]
    by_cases hu : u = w
    · simp [hu]
    · simp [hu]

/-- Settles O24: after the sweep every word reads 0, and a canonical table is what it reads. -/
theorem sweepInAnyOrderLeavesZero : Obligations.SweepInAnyOrderLeavesZero := by
  intro t order ht hall
  obtain ⟨hwf, hread⟩ := foldl_arrClear order ht
  refine table_ext hwf zeroTable_wf fun w => ?_
  rw [hread, if_pos (hall w), arrRead_zeroTable]

/-! ## The word and the position of an index -/

/-- A bit field of a bit field is a bit field; the library has the case of a field that starts at bit 0. -/
theorem extractLsb'_extractLsb'_add {w start len start' len' : Nat} (x : BitVec w) (h : start' + len' ≤ len) :
    (x.extractLsb' start len).extractLsb' start' len' = x.extractLsb' (start + start') len' := by
  ext i hi
  have hlen : start' + i < len := by omega
  simp [hlen, Nat.add_assoc]

/-- The word and the position of the low index, as bit fields of the hash (40_hashing.md R88). -/
theorem wordOf_idxLo (h : HashWord) : wordOf (idxLo h) = h.extractLsb' 6 10 := by
  rw [idxLo_eq, wordOf, extractLsb'_extractLsb'_add h (by decide)]

theorem posOf_idxLo (h : HashWord) : posOf (idxLo h) = h.extractLsb' 0 6 := by
  rw [idxLo_eq, posOf, extractLsb'_extractLsb'_add h (by decide)]

/-- The word and the position of the high index, as bit fields of the hash (40_hashing.md R88). -/
theorem wordOf_idxHi (h : HashWord) : wordOf (idxHi h) = h.extractLsb' 22 10 := by
  rw [idxHi_eq, wordOf, extractLsb'_extractLsb'_add h (by decide)]

theorem posOf_idxHi (h : HashWord) : posOf (idxHi h) = h.extractLsb' 16 6 := by
  rw [idxHi_eq, posOf, extractLsb'_extractLsb'_add h (by decide)]

/-- Settles O30; the index is recomposed by division with remainder. -/
theorem indexSelectsWordAndPosition : Obligations.IndexSelectsWordAndPosition := by
  refine ⟨fun i => ⟨wordOf_toNat i, posOf_toNat i, ?_⟩,
    fun h => ⟨wordOf_idxLo h, posOf_idxLo h, wordOf_idxHi h, posOf_idxHi h⟩⟩
  rw [wordOf_toNat, posOf_toNat, Nat.div_add_mod]

/-! ## A run and the words it accepts -/

theorem SameBlock.symm {s t : State} (h : SameBlock s t) : SameBlock t s := by
  obtain ⟨hh, hresult, hcount, hrdata, hill, hicause, htable⟩ := h
  exact ⟨hh.symm, hresult.symm, hcount.symm, hrdata.symm, hill.symm, hicause.symm, htable.symm⟩

theorem SameBlock.trans {s t u : State} (h : SameBlock s t) (h' : SameBlock t u) : SameBlock s u := by
  obtain ⟨hh, hresult, hcount, hrdata, hill, hicause, htable⟩ := h
  obtain ⟨hh', hresult', hcount', hrdata', hill', hicause', htable'⟩ := h'
  exact ⟨hh.trans hh', hresult.trans hresult', hcount.trans hcount', hrdata.trans hrdata', hill.trans hill',
    hicause.trans hicause', htable.trans htable'⟩

theorem SameBlock.refl (s : State) : SameBlock s s := ⟨rfl, rfl, rfl, rfl, rfl, rfl, rfl⟩

theorem core_run_succ (k : Nat) {s t : State} (h : step s = .next t) :
    Host.Core.run core (k + 1) s = Host.Core.run core k t := by
  have hcore : core.step s = .next t := h
  simp only [Host.Core.run, hcore]

theorem execCmds_cons {c : Cmd} (cs : List Cmd) {s t : State} (h : execCmd c s = .next t) :
    execCmds (c :: cs) s = execCmds cs t := by
  simp only [execCmds, h]

theorem acceptedCmds_of_accept (k : Nat) {s t : State} {c : Cmd} (he : edgeEvent s = .accept c)
    (h : step s = .next t) : acceptedCmds (k + 1) s = c :: acceptedCmds k t := by
  simp only [acceptedCmds, he, h]

theorem acceptedCmds_of_not_accept (k : Nat) {s t : State} (he : ∀ c, edgeEvent s ≠ .accept c)
    (h : step s = .next t) : acceptedCmds (k + 1) s = acceptedCmds k t := by
  cases hev : edgeEvent s with
  | accept c => exact absurd hev (he c)
  | reset => simp only [acceptedCmds, hev, h]
  | holdBroken => simp only [acceptedCmds, hev, h]
  | wait => simp only [acceptedCmds, hev, h]

/-- Past the end of the list of edges `rst` is 0 too, so a list without reset edges rules reset out (log entry 9). -/
theorem pins_rst_eq_false {s : State} (h : ∀ e ∈ s.edges, e.rst = false) : (pins s).rst = false := by
  unfold pins
  split
  · next e rest hedges => exact h e (by simp [hedges])
  · split
    · rfl
    · rfl

/-- The run and the accepted words alone may start from two states with the same registers and table: an accepted word
does the same to both, and an edge that waits does nothing to the run's. -/
theorem run_sameBlock_execCmds (k : Nat) {s v : State} (hrst : ∀ e ∈ s.edges, e.rst = false)
    (hhold : Along (fun u => edgeEvent u ≠ .holdBroken) k s) (hsv : SameBlock s v) :
    ∃ t u, Host.Core.run core k s = .next t ∧ execCmds (acceptedCmds k s) v = .next u ∧ SameBlock t u := by
  induction k generalizing s v with
  | zero => exact ⟨s, v, rfl, rfl, hsv⟩
  | succ k ih =>
    obtain ⟨hnow, hlater⟩ := hhold
    obtain ⟨s', hstep⟩ := step_next s
    have hrst' : ∀ e ∈ s'.edges, e.rst = false := fun e he =>
      hrst e (List.mem_of_mem_tail (step_edges hstep ▸ he))
    rw [core_run_succ k hstep]
    obtain ⟨he, -⟩ | ⟨c, he, hc⟩ | ⟨he, -⟩ | ⟨he, rfl⟩ := step_cases hstep
    · exact absurd (edgeEvent_eq_reset_iff.1 he) (by simp [pins_rst_eq_false hrst])
    · obtain ⟨t, v', ht, hv', hsame⟩ := execCmd_sameBlock (c := c) ((sameBlock_acceptEdge s).symm.trans hsv)
      obtain rfl : s' = t := Host.Outcome.next.inj (hc.symm.trans ht)
      rw [acceptedCmds_of_accept k he hstep, execCmds_cons _ hv']
      exact ih hrst' (hlater _ hstep) hsame
    · exact absurd he hnow
    · rw [acceptedCmds_of_not_accept k (by simp [he]) hstep]
      exact ih hrst' (hlater _ hstep) ((sameBlock_waitEdge s).symm.trans hsv)

/-- Settles O52: the simulation, started with both sides at the same state. -/
theorem runIsTheAcceptedWordsInOrder : Obligations.RunIsTheAcceptedWordsInOrder :=
  fun k s hrst hhold => run_sameBlock_execCmds k hrst hhold (SameBlock.refl s)

end Sys2Proof.Machine

/-! ## Decoding and encoding -/

namespace Sys2Proof

/-- The bits of `x` from `n` on are 0 exactly when its low `n` bits, extended with zeros, are `x`. -/
theorem and_allOnes_shiftLeft_eq_zero_iff (x : BitVec 32) (n : Nat) :
    x &&& BitVec.allOnes 32 <<< n = 0 ↔ (x.extractLsb' 0 n).setWidth 32 = x := by
  simp only [BitVec.eq_of_getLsbD_eq_iff, BitVec.getLsbD_and, BitVec.getLsbD_shiftLeft, BitVec.getLsbD_allOnes,
    BitVec.getLsbD_setWidth, BitVec.getLsbD_extractLsb', Nat.zero_add]
  refine forall₂_congr fun i hi => ?_
  by_cases hin : i < n
  · simp [hi, hin]
  · simp [hi, hin, show i - n < 32 by omega]

/-- An argument has no reserved bit set exactly when it is the argument of the command it builds (30_encoding.md R63). -/
theorem and_reserved_eq_zero_iff (o : Opcode) (arg : BitVec 32) :
    arg &&& o.format.reserved = 0 ↔ (buildInstr o arg).arg = arg := by
  have hz : arg &&& Format.z.reserved = 0 ↔ (0 : BitVec 32) = arg := by
    rw [show Format.z.reserved = BitVec.allOnes 32 from rfl, BitVec.and_allOnes, eq_comm]
  cases o with
  | nop | hinit | add | test | popcnt | clear | sclr => exact hz
  | hchar => exact and_allOnes_shiftLeft_eq_zero_iff arg 16
  | hload => exact iff_of_true (BitVec.and_zero) rfl
  | rdword => exact and_allOnes_shiftLeft_eq_zero_iff arg 10

theorem extractLsb'_zero_setWidth {w v : Nat} (h : w ≤ v) (x : BitVec w) : (x.setWidth v).extractLsb' 0 w = x := by
  rw [BitVec.extractLsb'_setWidth_of_le (by omega), BitVec.extractLsb'_eq_self]

theorem buildInstr_opcode_arg (i : Instr) : buildInstr i.opcode i.arg = i := by
  cases i with
  | nop | hinit | add | test | popcnt | clear | sclr | hload => rfl
  | hchar c => exact congrArg Instr.hchar (extractLsb'_zero_setWidth (by decide) c)
  | rdword w => exact congrArg Instr.rdword (extractLsb'_zero_setWidth (by decide) w)

theorem encode_buildInstr {o : Opcode} {arg : BitVec 32} (h : arg &&& o.format.reserved = 0) :
    encode (buildInstr o arg) = cmdWord o.code arg := by
  rw [encode, buildInstr_opcode, (and_reserved_eq_zero_iff o arg).1 h]

theorem decode_encode (i : Instr) : decode (encode i) = .ok i := by
  have hreserved : i.arg &&& i.opcode.format.reserved = 0 := by
    rw [and_reserved_eq_zero_iff, buildInstr_opcode_arg]
  rw [encode, decode_of_opField (opField_cmdWord _ _), argField_cmdWord, if_pos hreserved, buildInstr_opcode_arg]

/-- A word decodes to a command exactly when it is the command's own word (30_encoding.md R62, R65). -/
theorem decode_eq_ok_iff {c : Cmd} {i : Instr} : decode c = .ok i ↔ encode i = c := by
  refine ⟨fun h => ?_, fun h => h ▸ decode_encode i⟩
  obtain ⟨hop, hreserved⟩ := (matches_row_iff _ c).1 (Machine.matches_row_of_decode h)
  rw [decode_of_opField hop, if_pos hreserved] at h
  rw [← Except.ok.inj h, encode_buildInstr hreserved, ← hop, cmdWord_fields]

/-- Settles O1: the word carries the command's opcode and argument, no reserved bit among them. -/
theorem decodeOfEncodeIsTheCommand : Obligations.DecodeOfEncodeIsTheCommand := decode_encode

/-- Settles O2: the round trip read from the word. -/
theorem encodeOfDecodeIsTheWord : Obligations.EncodeOfDecodeIsTheWord := fun _ _ => decode_eq_ok_iff.1

/-! ## The opcode map -/

theorem opcodeOf_eq_none_iff : ∀ op : BitVec 4, opcodeOf op = none ↔ 0xA ≤ op.toNat := by decide

/-- Opcodes 0xA to 0xF are undefined whatever the argument (30_encoding.md R66, 60_exceptions.md R145). -/
theorem decode_of_undefined {c : Cmd} (h : 0xA ≤ (opField c).toNat) : decode c = .error .undefinedOpcode := by
  rw [decode, (opcodeOf_eq_none_iff _).2 h]

theorem exists_code_eq {op : BitVec 4} (h : op.toNat < 0xA) : ∃ o : Opcode, o.code = op := by
  cases ho : opcodeOf op with
  | none => exact absurd ((opcodeOf_eq_none_iff op).1 ho) (by omega)
  | some o => exact ⟨o, code_of_opcodeOf ho⟩

/-- A word that matches a row decodes to a command of that row (30_encoding.md R65). -/
theorem matches_row_iff_decode (o : Opcode) (c : Cmd) :
    c &&& o.maskWord = o.matchWord ↔ ∃ i, decode c = .ok i ∧ i.opcode = o := by
  constructor
  · intro h
    obtain ⟨hop, hreserved⟩ := (matches_row_iff o c).1 h
    exact ⟨_, by rw [decode_of_opField hop, if_pos hreserved], buildInstr_opcode o _⟩
  · rintro ⟨i, hi, rfl⟩
    exact Machine.matches_row_of_decode hi

/-- The rows exclude each other by their opcodes. -/
theorem row_unique {o o' : Opcode} {c : Cmd} (h : c &&& o.maskWord = o.matchWord)
    (h' : c &&& o'.maskWord = o'.matchWord) : o = o' :=
  code_injective (((matches_row_iff o c).1 h).1.symm.trans ((matches_row_iff o' c).1 h').1)

theorem no_row_iff_illegal (c : Cmd) : (∀ o : Opcode, c &&& o.maskWord ≠ o.matchWord) ↔ ∃ k, decode c = .error k := by
  simp only [ne_eq, matches_row_iff_decode]
  cases decode c with
  | ok i => simp
  | error k => simp

/-- Settles O3. -/
theorem opcodeMapIsExact : Obligations.OpcodeMapIsExact := by
  refine ⟨fun o => ?_, fun c => ⟨fun o => matches_row_iff_decode o c, fun _ _ => row_unique, no_row_iff_illegal c⟩⟩
  cases o <;> rfl

/-- Settles O4: the opcode selects the row, and the row's mask is its opcode and its reserved bits. -/
theorem decodeByOpcodeThenReservedBits : Obligations.DecodeByOpcodeThenReservedBits := by
  refine ⟨⟨rfl, rfl⟩, fun c => ⟨decode_of_undefined, fun hdefined => ?_⟩⟩
  obtain ⟨o, ho⟩ : ∃ o : Opcode, o.code = opField c := exists_code_eq hdefined
  have hrow : c &&& o.maskWord ≠ o.matchWord ↔ argField c &&& o.format.reserved ≠ 0 := by
    rw [ne_eq, matches_row_iff, ← ho, eq_self, true_and]
  refine ⟨o, ho, hrow, fun hne => ?_, (matches_row_iff_decode o c).1⟩
  rw [decode_of_opField ho.symm, if_neg (hrow.1 hne)]

/-! ## Operands -/

/-- A character's argument is the character below sixteen reserved zeros (30_encoding.md R63). -/
theorem encode_hchar (c : CharCode) : encode (.hchar c) = cmdWord 0x2 (0#16 ++ c) :=
  congrArg (cmdWord 0x2) (BitVec.setWidth_eq_append (by decide))

theorem encode_rdword (w : WordAddr) : encode (.rdword w) = cmdWord 0x7 (0#22 ++ w) :=
  congrArg (cmdWord 0x7) (BitVec.setWidth_eq_append (by decide))

/-- Settles O5: each listed word is the word of its command. -/
theorem operandFields : Obligations.OperandFields := by
  refine ⟨fun c => ⟨?_, ?_⟩, fun v => decode_encode (.hload v), fun w => ?_, decode_encode .nop, decode_encode .hinit,
    decode_encode .add, decode_encode .test, decode_encode .popcnt, decode_encode .clear, decode_encode .sclr⟩
  · rw [← encode_hchar, decode_encode]
  · exact BitVec.toNat_setWidth_of_le (by decide)
  · rw [← encode_rdword, decode_encode]

/-- Settles O6: the legal words are those of their commands, the illegal ones have opcode 0xA or a reserved bit set. -/
theorem encodingExamples : Obligations.EncodingExamples :=
  ⟨rfl, rfl, rfl, rfl, rfl, rfl, rfl, rfl, rfl, rfl, rfl, rfl, rfl, rfl, rfl⟩

/-! ## The assembler -/

theorem assemble_of_wellFormed {l : AsmLine} (h : l.wellFormed = true) : assemble l = some (expandLine l) := if_pos h

theorem assemble_eq_none {l : AsmLine} (h : l.wellFormed = false) : assemble l = none := by
  simp [assemble, h]

/-- Settles O7: in range the operand is its own residue, and out of range the line is not well formed. -/
theorem assemblerRanges : Obligations.AssemblerRanges := by
  refine ⟨fun c => ⟨fun h => ?_, fun h => ?_⟩, fun v => ⟨fun h => ?_, fun h => ?_⟩, fun w => ⟨fun h => ?_, fun h => ?_⟩⟩
  · refine ⟨BitVec.ofNat 16 c, ?_, assemble_of_wellFormed (by simpa [AsmLine.wellFormed] using h)⟩
    rw [BitVec.toNat_ofNat, Nat.mod_eq_of_lt (by omega)]
  · exact assemble_eq_none (by simpa [AsmLine.wellFormed] using h)
  · refine ⟨BitVec.ofInt 32 v, ?_, assemble_of_wellFormed (by simpa [AsmLine.wellFormed] using h)⟩
    rw [BitVec.toNat_ofInt, Int.toNat_of_nonneg (Int.emod_nonneg v (by decide))]
    rfl
  · exact assemble_eq_none (by simp only [AsmLine.wellFormed, Bool.and_eq_false_iff, decide_eq_false_iff_not]; omega)
  · refine ⟨BitVec.ofNat 10 w, ?_, assemble_of_wellFormed (by simpa [AsmLine.wellFormed] using h)⟩
    rw [BitVec.toNat_ofNat, Nat.mod_eq_of_lt (by omega)]
  · exact assemble_eq_none (by simpa [AsmLine.wellFormed] using h)

/-- Settles O8. -/
theorem pseudoInstructionExpansions : Obligations.PseudoInstructionExpansions :=
  fun _ => ⟨rfl, rfl, rfl, rfl, rfl, rfl⟩

end Sys2Proof

/-! ## Which word an edge accepts, and what stays held -/

namespace Sys2Proof.Machine

/-- An edge accepts exactly the word on the port when it is valid and the block is ready (30_encoding.md R61). -/
theorem edgeEvent_eq_accept_iff {s : State} {c : Cmd} :
    edgeEvent s = .accept c ↔ ((pins s).valid && cmdReady s) = true ∧ edgeCmd (pins s) = c := by
  unfold edgeEvent cmdReady
  split_ifs <;> simp_all

/-- What is held after a step: the word on the port, if one was presented and not accepted (70_reset_and_hazards.md
R176). -/
theorem step_held {s t : State} (h : step s = .next t) :
    t.held = if (pins s).valid && cmdReady s then none else edgeWord (pins s) := by
  by_cases hacc : ((pins s).valid && cmdReady s) = true
  · have he : edgeEvent s = .accept (edgeCmd (pins s)) := edgeEvent_eq_accept_iff.2 ⟨hacc, rfl⟩
    obtain ⟨-, -, hheld, -⟩ := execCmd_port ((step_of_accept he).symm.trans h)
    rw [if_pos hacc, hheld, acceptEdge_held]
  · rw [if_neg hacc]
    obtain ⟨-, rfl⟩ | ⟨c, he, -⟩ | ⟨-, rfl⟩ | ⟨-, rfl⟩ := step_cases h
    · rfl
    · exact absurd (edgeEvent_eq_accept_iff.1 he).1 hacc
    · rfl
    · rfl

/-- Settles O43: the acceptance condition of R61 is the one the edge tests, and `cmd_ready` includes `rst = 0`. -/
theorem acceptanceRule : Obligations.AcceptanceRule := by
  refine fun s => ⟨rfl, fun c => ?_, fun c => step_of_accept⟩
  rw [edgeEvent_eq_accept_iff, Bool.and_eq_true, eq_comm (a := edgeCmd _)]
  constructor
  · rintro ⟨⟨hvalid, hready⟩, hc⟩
    have hrst : (pins s).rst = false := by simp_all [cmdReady]
    exact ⟨hrst, hvalid, hready, hc⟩
  · rintro ⟨-, hvalid, hready, hc⟩
    exact ⟨⟨hvalid, hready⟩, hc⟩

/-- Settles O46: what is held after the edge is `step_held`, and past the end of the list the host goes on holding it. -/
theorem conformingHostMeetsNoOpenEdge : Obligations.ConformingHostMeetsNoOpenEdge := by
  intro s hhold
  obtain ⟨t, ht⟩ := step_next s
  refine ⟨fun he => ?_, t, ht, step_edges ht, ?_, hostHolds_of_edges_nil⟩
  · obtain ⟨-, -, hbroken⟩ := edgeEvent_eq_holdBroken_iff.1 he
    exact absurd hbroken (by simp [hostHolds_iff.1 hhold])
  · rw [step_held ht]
    unfold edgeWord
    cases (pins s).valid <;> cases cmdReady s <;> rfl

/-- Settles O41: the accepted word is executed after the port's side of the edge, as its decoding says. -/
theorem stepRunsTheDecodedCommand : Obligations.StepRunsTheDecodedCommand := by
  intro s c he
  rw [step_of_accept he]
  exact ⟨fun i hi => execCmd_of_decode hi _, fun k hk => execCmd_of_illegal hk _⟩

/-- A placed word is accepted at the next edge (log entry 10). -/
theorem edgeEvent_placeCmd (c : Cmd) (s : State) : edgeEvent (placeCmd c s) = .accept c :=
  edgeEvent_eq_accept_iff.2 ⟨rfl, cmdWord_fields c⟩

theorem step_placeCmd (c : Cmd) (s : State) :
    step (placeCmd c s) = execCmd c { s with busy := false, held := none, draw := s.draw + 1 } :=
  step_of_accept (edgeEvent_placeCmd c s)

/-- The table's word with its bits above 36 all 0 is its command word. -/
theorem tableCmd_eq {nbits w : Nat} (hw : w < 2 ^ 36) (hn : 36 ≤ nbits) : tableCmd nbits w = BitVec.ofNat 36 w := by
  rw [tableCmd, Nat.mod_eq_of_lt (hw.trans_le (Nat.pow_le_pow_right (by decide) hn))]

theorem decode_of_decodeTableWord {nbits w : Nat} {i : Instr} (h : decodeTableWord nbits w = some i) :
    decode (tableCmd nbits w) = .ok i := by
  unfold decodeTableWord at h
  split at h
  · cases hd : decode (tableCmd nbits w) <;> simp_all [Except.toOption]
  · cases h

/-- Settles O42: the word of the table is the word placed. -/
theorem placedWordRunsNext : Obligations.PlacedWordRunsNext := by
  intro s w hw nbits hn
  refine ⟨?_, fun i hi => ?_⟩
  · rw [← tableCmd_eq hw hn]
    exact edgeEvent_placeCmd _ s
  · rw [← execCmd_of_decode (decode_of_decodeTableWord hi)]
    exact step_placeCmd _ s

/-! ## The words a conforming host presents -/

theorem presentedCmds_succ (k : Nat) {s t : State} (hhold : HostHolds s) (h : step s = .next t) :
    s.held.toList ++ presentedCmds (k + 1) s = (edgeWord (pins s)).toList ++ presentedCmds k t := by
  rw [presentedCmds, h]
  cases hheld : s.held with
  | none => rfl
  | some w => rw [hhold w hheld]

/-- The word on the port of an edge is accepted there or stays held, so it goes on into the rest of the run. -/
theorem acceptedCmds_succ (k : Nat) {s t : State} (h : step s = .next t) {ws us : List Cmd}
    (hlater : t.held.toList ++ ws = acceptedCmds k t ++ us) :
    (edgeWord (pins s)).toList ++ ws = acceptedCmds (k + 1) s ++ us := by
  by_cases hacc : ((pins s).valid && cmdReady s) = true
  · have he : edgeEvent s = .accept (edgeCmd (pins s)) := edgeEvent_eq_accept_iff.2 ⟨hacc, rfl⟩
    have hword : edgeWord (pins s) = some (edgeCmd (pins s)) := if_pos (Bool.and_eq_true_iff.1 hacc).1
    rw [step_held h, if_pos hacc] at hlater
    rw [acceptedCmds_of_accept k he h, hword]
    exact congrArg (edgeCmd (pins s) :: ·) hlater
  · have he : ∀ c, edgeEvent s ≠ .accept c := fun c hc => hacc (edgeEvent_eq_accept_iff.1 hc).1
    rw [step_held h, if_neg hacc] at hlater
    rw [acceptedCmds_of_not_accept k he h, hlater]

/-- Settles O55, edge by edge. -/
theorem presentedWordsAreAcceptedOnceInOrder : Obligations.PresentedWordsAreAcceptedOnceInOrder := by
  intro k
  induction k with
  | zero => exact fun s _ => ⟨s, rfl, by simp [presentedCmds, acceptedCmds]⟩
  | succ k ih =>
    rintro s ⟨hnow, hlater⟩
    obtain ⟨s', hstep⟩ := step_next s
    obtain ⟨t, hrun, hwords⟩ := ih s' (hlater s' hstep)
    refine ⟨t, (core_run_succ k hstep).trans hrun, ?_⟩
    rw [presentedCmds_succ k hnow hstep]
    exact acceptedCmds_succ k hstep hwords

/-! ## A key that was added -/

theorem execAll_map_hchar (k : List CharCode) (s : State) :
    execAll (k.map Instr.hchar) s = .next { s with h := k.foldl hashStep s.h } := by
  induction k generalizing s with
  | nil => rfl
  | cons c k ih => exact ih { s with h := hashStep s.h c }

/-- The commands of a key leave `H` at the key's hash whatever it was, and change nothing else (40_hashing.md R82). -/
theorem execAll_hashCommands (k : List CharCode) (s : State) :
    execAll (hashCommands k) s = .next { s with h := k.foldl hashStep 0 } :=
  execAll_map_hchar k { s with h := 0 }

/-- A list of commands without CLEAR runs to its end, keeps the canonical form and turns no bit from 1 to 0
(20_memory.md R48). -/
theorem execAll_tableBit {is : List Instr} {s : State} (hs : Memory.wf s.table = true) (his : Instr.clear ∉ is) :
    ∃ t, execAll is s = .next t ∧ Memory.wf t.table = true ∧
      ∀ j, tableBit s.table j = true → tableBit t.table j = true := by
  induction is generalizing s with
  | nil => exact ⟨s, rfl, hs, fun _ hj => hj⟩
  | cons i is ih =>
    obtain ⟨hi, his⟩ := List.ne_and_not_mem_of_not_mem_cons his
    obtain ⟨s', -, hstep, -⟩ := exec_sameBlock (i := i) (SameBlock.refl s)
    obtain ⟨t, ht, hwf, hbits⟩ := ih (exec_wf hs hstep) his
    exact ⟨t, (execAll_cons hstep).trans ht, hwf, fun j hj => hbits j (exec_tableBit hs hi.symm hstep hj)⟩

/-- Settles O37: the two bits that ADD set are still 1 when TEST reads them at the same hash. -/
theorem addedKeyMightBeContained : Obligations.AddedKeyMightBeContained := by
  intro s k is hs his
  set v : HashWord := k.foldl hashStep 0
  have hput : execAll (expandLine (.put k)) s = .next { s with h := v, table := dualSet s.table v } :=
    execAll_append (execAll_hashCommands k s)
  obtain ⟨u, hu, -, hbits⟩ := execAll_tableBit (s := { s with h := v, table := dualSet s.table v }) (dualSet_wf hs v) his
  have htest : dualTest u.table v = true :=
    dualTest_eq_true.2 ⟨hbits _ (by simp [tableBit_dualSet hs]), hbits _ (by simp [tableBit_dualSet hs])⟩
  refine ⟨{ u with h := v, result := dualTest u.table v }, ?_, htest⟩
  rw [List.append_assoc, execAll_append hput, execAll_append hu]
  exact execAll_append (execAll_hashCommands k u)

end Sys2Proof.Machine

/-! ## Runs of edges that accept nothing -/

namespace Sys2Proof.Machine

theorem pins_of_edges {s : State} {e : Edge} {rest : List Edge} (h : s.edges = e :: rest) : pins s = e := by
  rw [pins, h]

theorem core_run_one (s : State) : Host.Core.run core 1 s = step s := by
  obtain ⟨t, ht⟩ := step_next s
  exact (core_run_succ 0 ht).trans ht.symm

theorem core_run_add {n : Nat} {s t : State} (h : Host.Core.run core n s = .next t) (m : Nat) :
    Host.Core.run core (n + m) s = Host.Core.run core m t := by
  induction n generalizing s with
  | zero => rw [Nat.zero_add, Host.Outcome.next.inj h]
  | succ n ih =>
    obtain ⟨s', hs'⟩ := step_next s
    rw [core_run_succ n hs'] at h
    rw [Nat.add_right_comm, core_run_succ (n + m) hs']
    exact ih h

/-- A run that ends at an edge which accepts `c` goes on with the execution of `c`. -/
theorem core_run_accept {n : Nat} {s t : State} {c : Cmd} (h : Host.Core.run core n s = .next t)
    (he : edgeEvent t = .accept c) : Host.Core.run core (n + 1) s = execCmd c (acceptEdge t) := by
  rw [core_run_add h, core_run_one, step_of_accept he]

/-- The next `n` edges lead from `s` to `t`, accept nothing and leave the registers and the table. -/
structure WaitsTo (n : Nat) (s t : State) : Prop where
  run : Host.Core.run core n s = .next t
  accepted : acceptedCmds n s = []
  same : SameBlock s t

theorem WaitsTo.zero (s : State) : WaitsTo 0 s s := ⟨rfl, rfl, SameBlock.refl s⟩

theorem WaitsTo.succ {n : Nat} {s t : State} (he : edgeEvent s = .wait) (h : WaitsTo n (waitEdge s) t) :
    WaitsTo (n + 1) s t where
  run := (core_run_succ n (step_of_wait he)).trans h.run
  accepted := (acceptedCmds_of_not_accept n (by simp [he]) (step_of_wait he)).trans h.accepted
  same := (sameBlock_waitEdge s).trans h.same

/-- A listed edge is a plain wait when it is no reset, a word is on it only while the block is busy, and the host holds
its word there. -/
theorem edgeEvent_wait_of_edges {s : State} {e : Edge} {rest : List Edge} (h : s.edges = e :: rest)
    (hrst : e.rst = false) (hbusy : e.valid = true → s.busy = true) (hhold : ∀ c, s.held = some c → edgeWord e = some c) :
    edgeEvent s = .wait := by
  have hpins : pins s = e := pins_of_edges h
  refine edgeEvent_eq_wait (by rw [hpins, hrst]) (fun c hc => ?_) fun w hw => by rw [hpins, hhold w hw]
  obtain ⟨hacc, -⟩ := edgeEvent_eq_accept_iff.1 hc
  simp_all [cmdReady]

theorem edgeEvent_accept_of_edges {s : State} {e : Edge} {rest : List Edge} {c : Cmd} (h : s.edges = e :: rest)
    (hrst : e.rst = false) (hword : edgeWord e = some c) (hbusy : s.busy = false) : edgeEvent s = .accept c := by
  obtain ⟨hvalid, hcmd⟩ := edgeWord_eq_some.1 hword
  have hpins : pins s = e := pins_of_edges h
  rw [edgeEvent_accept (by rw [hpins, hrst]) (by rw [hpins, hvalid]) hbusy, hpins, hcmd]

/-- With nothing held and nothing on the port, the block waits through any edges; they end its work if one of them does. -/
theorem waits_through_idle (es : List Edge) {s : State} {rest : List Edge} (h : s.edges = es ++ rest)
    (hheld : s.held = none) (hidle : ∀ e ∈ es, e.rst = false ∧ e.valid = false) :
    ∃ t, WaitsTo es.length s t ∧ t.edges = rest ∧ t.held = none ∧ t.busy = (s.busy && es.all fun e => !e.done) := by
  induction es generalizing s with
  | nil => exact ⟨s, .zero s, h, hheld, by simp⟩
  | cons e es ih =>
    obtain ⟨⟨hrst, hvalid⟩, hlater⟩ := List.forall_mem_cons.1 hidle
    have hpins : pins s = e := pins_of_edges h
    have he : edgeEvent s = .wait := edgeEvent_wait_of_edges h hrst (by simp [hvalid]) (by simp [hheld])
    obtain ⟨t, hwaits, hedges, hheld', hbusy⟩ :=
      ih (s := waitEdge s) (by simp [h]) (by simp [presented, edgeWord, hpins, hvalid]) hlater
    exact ⟨t, hwaits.succ he, hedges, hheld', by simp [hbusy, hpins, Bool.and_assoc]⟩

/-- While `BUSY = 1` the block waits, whatever the host presents and holds. -/
theorem waits_through_busyEdges (es : List Edge) {s : State} {rest : List Edge} (h : s.edges = busyEdges es ++ rest)
    (hbusy : s.busy = !es.isEmpty) (hrst : ∀ e ∈ es, e.rst = false) (hhold : HoldsThrough s.held es) :
    ∃ t, WaitsTo (busyEdges es).length s t ∧ t.edges = rest ∧ t.busy = false := by
  induction es using busyEdges.induct generalizing s with
  | case1 => exact ⟨s, .zero s, h, hbusy⟩
  | case2 e =>
    obtain ⟨hnow, -⟩ := hhold
    have he : edgeEvent s = .wait := edgeEvent_wait_of_edges h (hrst e (by simp)) (fun _ => hbusy) hnow
    exact ⟨waitEdge s, (WaitsTo.zero _).succ he, by simp [h, busyEdges], by simp [pins_of_edges h]⟩
  | case3 e f es ih =>
    obtain ⟨hnow, hlater⟩ := hhold
    obtain ⟨hrst, hrst'⟩ := List.forall_mem_cons.1 hrst
    have hpins : pins s = { e with done := false } := pins_of_edges h
    have he : edgeEvent s = .wait := edgeEvent_wait_of_edges h hrst (fun _ => hbusy) hnow
    obtain ⟨t, hwaits, hedges, hbusy'⟩ := ih (s := waitEdge s) (by simp [h, busyEdges]) (by simp [hpins, hbusy]) hrst'
      (by rw [waitEdge_held, presented, hpins]; exact hlater)
    exact ⟨t, hwaits.succ he, hedges, hbusy'⟩

/-! ## After a broken hold -/

/-- A word that is held through `waits` and the edge after them is accepted at the first edge that finds `BUSY = 0`. -/
theorem held_word_accepted (waits : List Edge) {s : State} {c : Cmd} {x : Edge} {rest : List Edge}
    (h : s.edges = waits ++ x :: rest) (hheld : s.held = some c)
    (hword : ∀ y ∈ waits ++ [x], y.rst = false ∧ edgeWord y = some c)
    (hdone : s.busy = false ∨ ∃ y ∈ waits, y.done = true) :
    ∃ k v, k ≤ waits.length ∧ WaitsTo k s v ∧ v.edges = s.edges.drop k ∧ edgeEvent v = .accept c := by
  induction waits generalizing s with
  | nil =>
    obtain ⟨hrst, hx⟩ := hword x (by simp)
    exact ⟨0, s, le_rfl, .zero s, rfl, edgeEvent_accept_of_edges h hrst hx (by simpa using hdone)⟩
  | cons y ys ih =>
    obtain ⟨⟨hrst, hy⟩, hlater⟩ := List.forall_mem_cons.1 hword
    cases hbusy : s.busy with
    | false => exact ⟨0, s, Nat.zero_le _, .zero s, rfl, edgeEvent_accept_of_edges h hrst hy hbusy⟩
    | true =>
      have hpins : pins s = y := pins_of_edges h
      have he : edgeEvent s = .wait := edgeEvent_wait_of_edges h hrst (fun _ => hbusy) (by simp [hheld, hy])
      have hdone' : (waitEdge s).busy = false ∨ ∃ z ∈ ys, z.done = true := by
        simpa [hbusy, hpins] using hdone
      obtain ⟨k, v, hk, hwaits, hedges, hacc⟩ :=
        ih (s := waitEdge s) (by simp [h]) (by simp [presented, hpins, hy]) hlater hdone'
      exact ⟨k + 1, v, Nat.succ_le_succ hk, hwaits.succ he, by simp [hedges, h], hacc⟩

/-- The run and its accepted words after a broken hold are those from the free values on. -/
theorem run_of_holdBroken {s t : State} (he : edgeEvent s = .holdBroken) {n : Nat} (h : WaitsTo n (brokenEdge s) t) :
    Host.Core.run core (n + 1) s = .next t ∧ acceptedCmds (n + 1) s = [] := by
  have hstep : step s = .next (brokenEdge s) := step_of_holdBroken he
  exact ⟨(core_run_succ n hstep).trans h.run, (acceptedCmds_of_not_accept n (by simp [he]) hstep).trans h.accepted⟩

/-- Settles O54: from the free values on, the block waits through the idle or the held edges, whatever `BUSY` is. -/
theorem brokenHoldThenAcceptOrReset : Obligations.BrokenHoldThenAcceptOrReset := by
  refine fun s e he => ⟨?withdrawn, ?changed, ?reset⟩
  case withdrawn =>
    intro c gap last x rest h hvalid hidle hdone hrst hword
    have hheld : (brokenEdge s).held = none := by simp [presented, edgeWord, pins_of_edges h, hvalid]
    obtain ⟨v, hwaits, hedges, -, hbusy⟩ :=
      waits_through_idle (gap ++ [last]) (s := brokenEdge s) (rest := x :: rest) (by simp [h]) hheld hidle
    rw [List.length_append] at hwaits
    obtain ⟨hrun, haccepted⟩ := run_of_holdBroken he hwaits
    have hacc : edgeEvent v = .accept c := edgeEvent_accept_of_edges hedges hrst hword (by simp [hbusy, hdone])
    exact ⟨v, hrun, hedges, haccepted, hacc, core_run_accept hrun hacc⟩
  case changed =>
    intro c waits last x rest h hword hhold hdone
    have hheld : (brokenEdge s).held = some c := by simp [presented, pins_of_edges h, hword]
    obtain ⟨k, v, hk, hwaits, hedges, hacc⟩ := held_word_accepted (waits ++ [last]) (s := brokenEdge s) (x := x)
      (rest := rest) (by simp [h]) hheld (by simpa using hhold) (.inr ⟨last, by simp, hdone⟩)
    obtain ⟨hrun, haccepted⟩ := run_of_holdBroken he hwaits
    exact ⟨k, v, by simpa using hk, hrun, by simp [hedges], haccepted, hacc, core_run_accept hrun hacc⟩
  case reset =>
    intro r rest h hrst
    have hpins : pins (brokenEdge s) = r := pins_of_edges (rest := rest) (by simp [h])
    have hr : edgeEvent (brokenEdge s) = .reset := edgeEvent_reset (by rw [hpins, hrst])
    refine ⟨resetEdge (brokenEdge s), ?_, (sameBlock_reset_resetEdge _).symm, rfl, by simp [h]⟩
    exact ((core_run_succ 1 (step_of_holdBroken he)).trans (core_run_one _)).trans (step_of_reset hr)

end Sys2Proof.Machine

/-! ## A host's program -/

namespace Sys2Proof.Machine

/-- The edges of a turn before the one that accepts its word: those at which `BUSY` stays 1, then the pause. -/
def Turn.lead (u : Turn) : List Edge :=
  busyEdges (List.replicate u.quiet (idleEdge false) ++ List.replicate u.waits (presentEdge u.word false)) ++
    if u.waits = 0 then List.replicate u.pause (idleEdge false) else []

theorem driveEdges_cons (n : Nat) (u : Turn) (us : List Turn) :
    driveEdges n (u :: us) = u.lead ++ presentEdge u.word (decide (busyBefore n us = 0)) :: driveEdges n us := rfl

theorem edgeWord_presentEdge (c : Cmd) (done : Bool) : edgeWord (presentEdge c done) = some c :=
  edgeWord_eq_some.2 ⟨rfl, cmdWord_fields c⟩

theorem holdsThrough_presentEdge {w : Option Cmd} {c : Cmd} (hw : ∀ d, w = some d → d = c) (n : Nat) :
    HoldsThrough w (List.replicate n (presentEdge c false)) := by
  induction n generalizing w with
  | zero => trivial
  | succ n ih =>
    refine ⟨fun d hd => by rw [edgeWord_presentEdge, hw d hd], ?_⟩
    rw [edgeWord_presentEdge]
    exact ih fun d hd => (Option.some.inj hd).symm

theorem holdsThrough_idle_present (q n : Nat) (c : Cmd) :
    HoldsThrough none (List.replicate q (idleEdge false) ++ List.replicate n (presentEdge c false)) := by
  induction q with
  | zero => exact holdsThrough_presentEdge (by simp) n
  | succ q ih => exact ⟨nofun, ih⟩

/-- `busyEdges` changes the field `done` alone. -/
theorem mem_busyEdges {es : List Edge} {e : Edge} (h : e ∈ busyEdges es) : ∃ f ∈ es, ∃ d, e = { f with done := d } := by
  induction es using busyEdges.induct with
  | case1 => cases h
  | case2 f => exact ⟨f, by simp, true, List.mem_singleton.1 h⟩
  | case3 f g es ih =>
    obtain rfl | h := List.mem_cons.1 h
    · exact ⟨f, by simp, false, rfl⟩
    · obtain ⟨f', hf', d, rfl⟩ := ih h
      exact ⟨f', List.mem_cons_of_mem _ hf', d, rfl⟩

/-- The last of the edges at which `BUSY` is 1, if there is one, completes the work. -/
theorem busyEdges_all_not_done (es : List Edge) : ((busyEdges es).all fun e => !e.done) = es.isEmpty := by
  induction es using busyEdges.induct with
  | case1 => rfl
  | case2 e => rfl
  | case3 e f es ih => simpa [busyEdges] using ih

theorem mem_busyEdges_idle {n : Nat} {e : Edge} (h : e ∈ busyEdges (List.replicate n (idleEdge false))) :
    e.rst = false ∧ e.valid = false := by
  obtain ⟨f, hf, d, rfl⟩ := mem_busyEdges h
  obtain ⟨-, rfl⟩ := List.mem_replicate.1 hf
  exact ⟨rfl, rfl⟩

/-- After the last word the host is idle until the work is complete. -/
theorem waits_through_busy_idle (n : Nat) {s : State} {rest : List Edge}
    (h : s.edges = busyEdges (List.replicate n (idleEdge false)) ++ rest) (hheld : s.held = none)
    (hbusy : s.busy = decide (n ≠ 0)) :
    ∃ t, WaitsTo (busyEdges (List.replicate n (idleEdge false))).length s t ∧ t.edges = rest ∧ t.held = none ∧
      t.busy = false := by
  obtain ⟨t, hwaits, hedges, hheld', hbusy'⟩ := waits_through_idle _ h hheld fun e he => mem_busyEdges_idle he
  exact ⟨t, hwaits, hedges, hheld', by simp [hbusy', hbusy, busyEdges_all_not_done]⟩

/-- The lead of a turn is waited through, and the block is ready after it, whether or not the word is presented early. -/
theorem waits_through_lead (u : Turn) {s : State} {rest : List Edge} (h : s.edges = u.lead ++ rest)
    (hheld : s.held = none) (hbusy : s.busy = decide (u.quiet + u.waits ≠ 0)) :
    ∃ t, WaitsTo u.lead.length s t ∧ t.edges = rest ∧ t.busy = false := by
  by_cases hw : u.waits = 0
  · have hlead : u.lead =
        busyEdges (List.replicate u.quiet (idleEdge false)) ++ List.replicate u.pause (idleEdge false) := by
      simp [Turn.lead, hw]
    have hidle : ∀ e ∈ u.lead, e.rst = false ∧ e.valid = false := by
      intro e he
      rw [hlead, List.mem_append, List.mem_replicate] at he
      obtain he | ⟨-, rfl⟩ := he
      · exact mem_busyEdges_idle he
      · exact ⟨rfl, rfl⟩
    obtain ⟨t, hwaits, hedges, -, hbusy'⟩ := waits_through_idle _ h hheld hidle
    refine ⟨t, hwaits, hedges, ?_⟩
    rw [hbusy', hbusy, hlead, List.all_append, busyEdges_all_not_done]
    simp +contextual [hw]
  · have hlead : u.lead = busyEdges
        (List.replicate u.quiet (idleEdge false) ++ List.replicate u.waits (presentEdge u.word false)) := by
      simp [Turn.lead, hw]
    rw [hlead] at h ⊢
    refine waits_through_busyEdges _ h (by simp [hbusy, hw]) (fun e he => ?_) (hheld ▸ holdsThrough_idle_present _ _ _)
    simp only [List.mem_append, List.mem_replicate] at he
    obtain ⟨-, rfl⟩ | ⟨-, rfl⟩ := he
    · rfl
    · rfl

/-- The run of a host's program and its words alone may start from two states with the same registers and table. -/
theorem run_driveEdges (n : Nat) (us : List Turn) {s v : State} {rest : List Edge}
    (hbusy : s.busy = decide (busyBefore n us ≠ 0)) (hheld : s.held = none) (h : s.edges = driveEdges n us ++ rest)
    (hsv : SameBlock s v) :
    ∃ t u, Host.Core.run core (driveEdges n us).length s = .next t ∧ execCmds (us.map Turn.word) v = .next u ∧
      SameBlock t u ∧ t.busy = false ∧ t.held = none ∧ t.edges = rest := by
  induction us generalizing s v with
  | nil =>
    obtain ⟨t, hwaits, hedges, hheld', hbusy'⟩ := waits_through_busy_idle n h hheld hbusy
    exact ⟨t, v, hwaits.run, rfl, hwaits.same.symm.trans hsv, hbusy', hheld', hedges⟩
  | cons u us ih =>
    rw [driveEdges_cons, List.append_assoc] at h
    obtain ⟨w, hwaits, hedges, hready⟩ := waits_through_lead u h hheld hbusy
    have hacc : edgeEvent w = .accept u.word :=
      edgeEvent_accept_of_edges hedges rfl (edgeWord_presentEdge _ _) hready
    obtain ⟨s', v', hs', hv', hsame⟩ :=
      execCmd_sameBlock (c := u.word) ((sameBlock_acceptEdge w).symm.trans (hwaits.same.symm.trans hsv))
    obtain ⟨hbusy', hedges', hheld', -⟩ := execCmd_port hs'
    have hrun : Host.Core.run core (u.lead.length + 1) s = .next s' := (core_run_accept hwaits.run hacc).trans hs'
    obtain ⟨t, x, ht, hx, hend⟩ :=
      ih (s := s') (by simp [hbusy', pins_of_edges hedges, presentEdge]) hheld' (by simp [hedges', hedges]) hsame
    refine ⟨t, x, ?_, (execCmds_cons _ hv').trans hx, hend⟩
    rw [driveEdges_cons, List.length_append, List.length_cons, Nat.add_comm (driveEdges n us).length 1, ← Nat.add_assoc,
      core_run_add hrun, ht]

/-- Settles O53: the run of the program, its words executed from the same state. -/
theorem presentedWordsAllComplete : Obligations.PresentedWordsAllComplete :=
  fun n us s _ hbusy hheld h => run_driveEdges n us hbusy hheld h (SameBlock.refl s)

end Sys2Proof.Machine

/-! ## The words of one command -/

namespace Sys2Proof.Machine

theorem execCmd_encode (i : Instr) (s : State) : execCmd (encode i) s = exec i s :=
  execCmd_of_decode (decode_encode i) s

/-- A defined opcode with a 1 in a reserved bit of its format raises and is not performed (30_encoding.md R66). -/
theorem execCmd_of_reserved {o : Opcode} {arg : BitVec 32} (h : arg &&& o.format.reserved ≠ 0) (s : State) :
    execCmd (cmdWord o.code arg) s = .next (raiseIllegal .reservedBit s) := by
  refine execCmd_of_illegal ?_ s
  rw [decode_of_opField (opField_cmdWord _ _), argField_cmdWord, if_neg h]

/-- A command without operands has every bit of its argument reserved (30_encoding.md R63). -/
theorem execCmd_of_arg_ne_zero {o : Opcode} (ho : o.format = .z) {arg : BitVec 32} (h : arg ≠ 0) (s : State) :
    execCmd (cmdWord o.code arg) s = .next (raiseIllegal .reservedBit s) := by
  have hreserved : o.format.reserved = BitVec.allOnes 32 := by rw [ho]; rfl
  exact execCmd_of_reserved (by rwa [hreserved, BitVec.and_allOnes]) s

/-- A 1 in a bit field from `n` on is a 1 among the bits from `n` on. -/
theorem and_allOnes_shiftLeft_ne_zero {x : BitVec 32} {n len : Nat} (h : x.extractLsb' n len ≠ 0) :
    x &&& BitVec.allOnes 32 <<< n ≠ 0 := by
  intro hz
  refine h ?_
  rw [← (and_allOnes_shiftLeft_eq_zero_iff x n).1 hz]
  ext i hi
  simp

/-! ## The commands of the hash -/

/-- Settles O14: the word is HINIT's own, and every bit of its argument is reserved. -/
theorem hinitClearsTheHash : Obligations.HinitClearsTheHash :=
  fun s => ⟨exec_hinit s, execCmd_encode .hinit s, fun _ harg => execCmd_of_arg_ne_zero (o := .hinit) rfl harg s⟩

/-- Settles O15: the value is `hashStep`, and the reserved bits of the word are the upper half of its argument. -/
theorem hcharIsOneHashStep : Obligations.HcharIsOneHashStep := by
  intro s c
  refine ⟨hashStep s.h c, hashStep_toNat s.h c, exec_hchar c s, ?_, fun arg harg => ?_⟩
  · rw [← encode_hchar, execCmd_encode, exec_hchar]
  · exact execCmd_of_reserved (o := .hchar) (and_allOnes_shiftLeft_ne_zero harg) s

/-- Settles O16: the whole argument is the operand, so every argument is that of an HLOAD. -/
theorem hloadWritesTheHash : Obligations.HloadWritesTheHash :=
  fun s v => ⟨exec_hload v s, execCmd_encode (.hload v) s, fun c => ⟨hashStep v c, hashStep_toNat v c, rfl⟩⟩

theorem hashStep_eq (h : HashWord) (c : CharCode) : hashStep h c = 31 * h + charWord c := rfl

/-- The hash step as a shift, a subtract and an add: `31 * h` is `32 * h - h`. -/
theorem hashStep_eq_shift_sub (h : HashWord) (c : CharCode) : hashStep h c = (h <<< 5) - h + charWord c := by
  have h32 : h <<< 5 = h * 32 := BitVec.shiftLeft_eq_mul_twoPow h 5
  rw [hashStep_eq, h32]
  ring

/-- Settles O32: the step's multiplication by 31 is the shift and the subtract. -/
theorem hashStepByShiftAndSubtract : Obligations.HashStepByShiftAndSubtract := by
  intro s c
  rw [exec_hchar, hashStep_eq_shift_sub, charWord]

/-! ## The two indices of a hash -/

theorem idxLo_toNat (h : HashWord) : (idxLo h).toNat = h.toNat % 65536 := by
  rw [idxLo_eq, BitVec.extractLsb'_toNat, Nat.shiftRight_zero]

theorem idxHi_toNat (h : HashWord) : (idxHi h).toNat = h.toNat / 65536 := by
  rw [idxHi_eq, BitVec.extractLsb'_toNat, Nat.shiftRight_eq_div_pow]
  omega

/-- Settles O29, as bit fields and as numbers. -/
theorem subHashesAreTheHalves : Obligations.SubHashesAreTheHalves :=
  fun h => ⟨idxLo_eq h, idxLo_toNat h, idxHi_eq h, idxHi_toNat h⟩

/-- A hash below 65536 has bit index 0 as its high index (40_hashing.md R89). -/
theorem idxHi_eq_zero {h : HashWord} (hlt : h.toNat < 65536) : idxHi h = 0 :=
  BitVec.eq_of_toNat_eq ((idxHi_toNat h).trans (Nat.div_eq_of_lt hlt))

/-- Settles O31: the indices, their words and their positions are bit fields of the hash, and bit index 0 is bit 0 of
word 0. -/
theorem indexCornerCases : Obligations.IndexCornerCases := by
  refine ⟨fun h => ?_, fun h => ?_, fun s hs hlt => ⟨idxHi_eq_zero hlt, _, exec_add s, ?_⟩⟩
  · rw [idxLo_eq, idxHi_eq, eq_comm]
  · rw [wordOf_idxLo, wordOf_idxHi, posOf_idxLo, posOf_idxHi, eq_comm, ne_comm]
  · have hbit : tableBit (dualSet s.table s.h) 0 = true := by simp [tableBit_dualSet hs, idxHi_eq_zero hlt]
    exact hbit

/-! ## The write matrix -/

/-- Settles O27, row by row: what the command writes is by the law of its operation, the rest by its equation. -/
theorem writeMatrix : Obligations.WriteMatrix := by
  intro i s hs
  cases i with
  | nop | hinit | hload | rdword | sclr =>
    exact ⟨_, rfl, rfl, rfl, rfl, rfl, rfl, fun _ => rfl, rfl, rfl, rfl, rfl⟩
  | hchar c =>
    exact ⟨_, rfl, hashStep_toNat s.h c, rfl, rfl, rfl, rfl, fun _ => rfl, rfl, rfl, rfl, rfl⟩
  | test =>
    refine ⟨_, rfl, rfl, ?_, rfl, rfl, rfl, fun _ => rfl, rfl, rfl, rfl, rfl⟩
    simp only [dualTest, idxLo_eq, idxHi_eq]
  | popcnt =>
    exact ⟨_, rfl, rfl, rfl, count_toNat s.table, rfl, rfl, fun _ => rfl, rfl, rfl, rfl, rfl⟩
  | add =>
    refine ⟨_, rfl, rfl, rfl, rfl, rfl, rfl, fun j => ?_, rfl, rfl, rfl, rfl⟩
    simp only [← idxLo_eq, ← idxHi_eq, tableBit_dualSet hs]
  | clear =>
    exact ⟨_, rfl, rfl, rfl, rfl, rfl, rfl, tableBit_zeroTable, rfl, rfl, rfl, rfl⟩

/-! ## The hash of a key -/

/-- The first character of a key has the highest power of 31 (40_hashing.md R80). -/
theorem keyHash_cons (c : CharCode) (k : List CharCode) :
    keyHash (c :: k) = charWord c * 31 ^ k.length + keyHash k := by
  have hexp : ∀ j, k.length + 1 - 1 - (j + 1) = k.length - 1 - j := fun j => by omega
  simp only [keyHash, List.length_cons, Finset.sum_range_succ', List.getD_cons_succ, List.getD_cons_zero, hexp]
  rw [BitVec.ofNat_add, BitVec.ofNat_mul, BitVec.ofNat_pow, BitVec.ofNat_toNat, add_comm]
  rfl

/-- Characters from any hash on: the hash is multiplied by 31 for each and the key's own hash is added. -/
theorem foldl_hashStep (k : List CharCode) (h : HashWord) :
    k.foldl hashStep h = 31 ^ k.length * h + keyHash k := by
  induction k generalizing h with
  | nil => simp [keyHash]
  | cons c k ih =>
    rw [List.foldl_cons, ih, keyHash_cons, hashStep_eq, List.length_cons]
    ring

/-- The commands of a key leave `H` at the closed form of its hash (40_hashing.md R80). -/
theorem execAll_hashCommands_keyHash (k : List CharCode) (s : State) :
    execAll (hashCommands k) s = .next { s with h := keyHash k } := by
  rw [execAll_hashCommands, foldl_hashStep, mul_zero, zero_add]

/-- Settles O33: the hash of the string is `keyHash`. -/
theorem charactersGiveThePolynomial : Obligations.CharactersGiveThePolynomial :=
  fun k s => ⟨keyHash k, BitVec.toNat_ofNat _ _, execAll_hashCommands_keyHash k s⟩

/-- Settles O34: HLOAD of the key's hash answers the state the key's commands leave. -/
theorem hloadStandsForTheKey : Obligations.HloadStandsForTheKey := by
  intro k is s
  rw [execAll_append (execAll_hashCommands_keyHash k s), execAll_cons (exec_hload (keyHash k) s)]

end Sys2Proof.Machine

/-! ## The table by its bits -/

namespace Sys2Proof.Machine

/-- A bit of a word is the table bit at the word's index (20_memory.md R41). -/
theorem getLsbD_arrRead (t : Memory) (w : WordAddr) {p : Nat} (hp : p < 64) :
    (arrRead t w).getLsbD p = tableBit t (BitVec.ofNat 16 (64 * w.toNat + p)) :=
  (tableBit_at t w.isLt hp).symm

/-- Two canonical tables with the same bits are equal. -/
theorem table_ext_tableBit {t u : Memory} (ht : Memory.wf t = true) (hu : Memory.wf u = true)
    (h : ∀ i, tableBit t i = tableBit u i) : t = u := by
  refine table_ext ht hu fun w => BitVec.eq_of_getLsbD_eq fun p hp => ?_
  rw [getLsbD_arrRead t w hp, getLsbD_arrRead u w hp, h]

/-- Where no bit goes from 1 to 0, a word keeps all its 1 bits. -/
theorem arrRead_and_arrRead {t u : Memory} (h : ∀ i, tableBit t i = true → tableBit u i = true) (w : WordAddr) :
    arrRead u w &&& arrRead t w = arrRead t w := by
  refine BitVec.eq_of_getLsbD_eq fun p hp => ?_
  rw [BitVec.getLsbD_and, getLsbD_arrRead t w hp, getLsbD_arrRead u w hp, Bool.and_eq_right_iff_imp]
  exact h _

/-! ## The population count by words -/

/-- POPCNT's loop as a sum over the words (41_table_ops.md R106). -/
theorem popcountBelow_eq_sum (t : Memory) (k : Nat) :
    popcountBelow t k = ∑ w ∈ Finset.range k, popcount (lookupWord t w) := by
  induction k with
  | zero => rfl
  | succ k ih => rw [popcountBelow, ih, Finset.sum_range_succ]

theorem tableOnes_eq_sum (t : Memory) : tableOnes t = ∑ w ∈ Finset.range 1024,
    ((Finset.range 64).filter fun p => (arrRead t (BitVec.ofNat 10 w)).getLsbD p = true).card := by
  rw [← tablePopcount_eq, tablePopcount, popcountBelow_eq_sum]
  refine Finset.sum_congr rfl fun w hw => ?_
  have haddr : (BitVec.ofNat 10 w).toNat = w := Nat.mod_eq_of_lt (Finset.mem_range.1 hw)
  rw [popcount_eq, arrRead, haddr]

/-- Every word all ones makes every one of the 65,536 bits a 1. -/
theorem tableOnes_of_allOnes {t : Memory} (h : ∀ w, arrRead t w = BitVec.allOnes 64) : tableOnes t = 65536 := by
  have hword : ((Finset.range 64).filter fun p => (BitVec.allOnes 64).getLsbD p = true).card = 64 := by decide
  simp only [tableOnes_eq_sum, h, hword, Finset.sum_const, Finset.card_range, smul_eq_mul]

theorem tableOnes_of_zero {t : Memory} (h : ∀ w, arrRead t w = 0) : tableOnes t = 0 := by
  simp [tableOnes, tableBit, h]

@[simp] theorem tableOnes_zeroTable : tableOnes zeroTable = 0 := tableOnes_of_zero arrRead_zeroTable

/-- What POPCNT writes, from the number of table bits that are 1. -/
theorem count_of_tableOnes {t : Memory} {n : Nat} (h : tableOnes t = n) :
    BitVec.ofNat 17 (tablePopcount t) = BitVec.ofNat 17 n := by
  rw [tablePopcount_eq, h]

/-! ## The dual bit-set -/

/-- TEST's two bits are 1 after ADD at the same hash (41_table_ops.md R105). -/
theorem dualTest_dualSet {t : Memory} (ht : Memory.wf t = true) (h : HashWord) : dualTest (dualSet t h) h = true :=
  dualTest_eq_true.2 ⟨by simp [tableBit_dualSet ht], by simp [tableBit_dualSet ht]⟩

/-- Where TEST answers 1, ADD changes nothing. -/
theorem dualSet_of_dualTest {t : Memory} (ht : Memory.wf t = true) {h : HashWord} (hh : dualTest t h = true) :
    dualSet t h = t := by
  obtain ⟨hlo, hhi⟩ := dualTest_eq_true.1 hh
  refine table_ext_tableBit (dualSet_wf ht h) ht fun i => ?_
  rw [tableBit_dualSet ht, Bool.or_assoc, Bool.or_eq_left_iff_imp]
  simp only [Bool.or_eq_true, decide_eq_true_eq]
  rintro (rfl | rfl)
  · exact hlo
  · exact hhi

theorem le_tableOnes_dualSet {t : Memory} (ht : Memory.wf t = true) (h : HashWord) :
    tableOnes t ≤ tableOnes (dualSet t h) := by
  rw [tableOnes_dualSet ht]
  omega

theorem tableOnes_dualSet_le {t : Memory} (ht : Memory.wf t = true) (h : HashWord) :
    tableOnes (dualSet t h) ≤ tableOnes t + 2 := by
  rw [tableOnes_dualSet ht]
  split_ifs <;> omega

theorem tableOnes_dualSet_le_of_idx_eq {t : Memory} (ht : Memory.wf t = true) {h : HashWord} (heq : idxHi h = idxLo h) :
    tableOnes (dualSet t h) ≤ tableOnes t + 1 := by
  rw [tableOnes_dualSet ht, heq]
  simp only [decide_true, Bool.or_true, if_true, add_zero]
  split_ifs <;> omega

theorem tableOnes_dualSet_zeroTable (h : HashWord) :
    tableOnes (dualSet zeroTable h) = if idxLo h = idxHi h then 1 else 2 := by
  rw [tableOnes_dualSet zeroTable_wf]
  by_cases heq : idxLo h = idxHi h
  · simp [heq]
  · simp [heq, Ne.symm heq]

/-- ADD of one hash after another: the fill does not fall, and rises by at most 2 for each (41_table_ops.md R107). -/
theorem tableOnes_foldl_dualSet (vs : List HashWord) {t : Memory} (ht : Memory.wf t = true) :
    tableOnes t ≤ tableOnes (vs.foldl dualSet t) ∧ tableOnes (vs.foldl dualSet t) ≤ tableOnes t + 2 * vs.length := by
  induction vs generalizing t with
  | nil => simp
  | cons v vs ih =>
    obtain ⟨hlow, hhigh⟩ := ih (dualSet_wf ht v)
    rw [List.foldl_cons, List.length_cons]
    have hone := tableOnes_dualSet_le ht v
    exact ⟨(le_tableOnes_dualSet ht v).trans hlow, by omega⟩

/-- HLOAD and ADD of one hash after another: the dual bit-set of each, from the first on. -/
theorem execAll_adds (vs : List HashWord) (s : State) :
    ∃ v, execAll (vs.flatMap fun x => [.hload x, .add]) s = .next { s with h := v, table := vs.foldl dualSet s.table } := by
  induction vs generalizing s with
  | nil => exact ⟨s.h, rfl⟩
  | cons v vs ih => exact ih { s with h := v, table := dualSet s.table v }

/-- The same from CLEAR on: the table holds the added hashes alone, whatever it held before (41_table_ops.md R109). -/
theorem execAll_clear_adds (vs : List HashWord) (is : List Instr) (s : State) :
    ∃ v, execAll (.clear :: (vs.flatMap fun x => [.hload x, .add]) ++ is) s =
      execAll is { s with h := v, table := vs.foldl dualSet zeroTable } := by
  obtain ⟨v, hadds⟩ := execAll_adds vs { s with table := zeroTable }
  exact ⟨v, execAll_append ((execAll_cons (exec_clear s)).trans hadds)⟩

/-! ## The commands of the table -/

/-- Settles O17: the words and the positions of the two indices are bit fields of the hash. -/
theorem addSetsTwoBits : Obligations.AddSetsTwoBits := by
  intro s hs
  refine ⟨⟨_, exec_add s, execCmd_encode .add s, rfl, fun w => ?_⟩,
    fun _ harg => execCmd_of_arg_ne_zero (o := .add) rfl harg s⟩
  rw [arrRead_dualSet hs, wordOf_idxLo, wordOf_idxHi, posOf_idxLo, posOf_idxHi]
  rfl

/-- Settles O18: with the two words equal, both masks of R101 are those of the one word. -/
theorem addMergesOneWord : Obligations.AddMergesOneWord := by
  refine ⟨fun s hs hword => ⟨_, exec_add s, ?_, fun hhalves => ?_⟩, fun s hs => ?_⟩
  · rw [arrRead_dualSet hs, wordOf_idxLo, wordOf_idxHi, posOf_idxLo, posOf_idxHi, hword, if_pos rfl, if_pos rfl]
    rfl
  · exact tableOnes_dualSet_le_of_idx_eq hs (by rw [idxHi_eq, idxLo_eq, hhalves])
  · refine ⟨_, _, _, exec_add _, ?_, exec_add _, ?_, exec_add _, ?_⟩
    all_goals
      simp only [hs]
      decide

/-- Settles O19: TEST would answer 1 after the first ADD, so the second has nothing to set. -/
theorem addIsIdempotent : Obligations.AddIsIdempotent := by
  intro s hs
  refine ⟨_, exec_add s, ?_⟩
  rw [exec_add, dualSet_of_dualTest (dualSet_wf hs s.h) (dualTest_dualSet hs s.h)]

/-- Settles O20: the answer is `dualTest`. -/
theorem testAnswersBothBits : Obligations.TestAnswersBothBits := by
  intro s
  refine ⟨dualTest s.table s.h, ?_, exec_test s, execCmd_encode .test s, fun hzero => ?_,
    fun _ harg => execCmd_of_arg_ne_zero (o := .test) rfl harg s⟩
  · rw [← wordOf_idxLo, ← posOf_idxLo, ← wordOf_idxHi, ← posOf_idxHi]
    exact dualTest_eq_true
  · simp [dualTest, tableBit, hzero]

/-- Settles O21: `COUNT` is `tableOnes`, which is the sum by words. -/
theorem popcntCountsTheTable : Obligations.PopcntCountsTheTable := by
  intro s
  have hcount := count_toNat s.table
  refine ⟨BitVec.ofNat 17 (tablePopcount s.table), hcount.trans (tableOnes_eq_sum s.table),
    hcount.trans_le (tableOnes_le s.table), fun hzero => count_of_tableOnes (tableOnes_of_zero hzero),
    fun hones => count_of_tableOnes (tableOnes_of_allOnes hones), exec_popcnt s, execCmd_encode .popcnt s,
    fun _ harg => execCmd_of_arg_ne_zero (o := .popcnt) rfl harg s⟩

/-- Settles O22: the bits of a word are table bits, and the reserved bits of the word are those above its address. -/
theorem rdwordReadsOneWord : Obligations.RdwordReadsOneWord := by
  intro s w
  refine ⟨arrRead s.table w, rfl, fun p hp => getLsbD_arrRead s.table w hp, exec_rdword w s, ?_, fun arg harg => ?_⟩
  · rw [← encode_rdword, execCmd_encode, exec_rdword]
  · exact execCmd_of_reserved (o := .rdword) (and_allOnes_shiftLeft_ne_zero harg) s

/-- Settles O23: the table after CLEAR is the all-zero one, which has no 1 bit. -/
theorem clearEmptiesTheTable : Obligations.ClearEmptiesTheTable := by
  intro s
  refine ⟨⟨_, exec_clear s, execCmd_encode .clear s, rfl, arrRead_zeroTable, ?_⟩,
    fun _ harg => execCmd_of_arg_ne_zero (o := .clear) rfl harg s⟩
  rw [exec_popcnt, count_of_tableOnes tableOnes_zeroTable]
  rfl

/-! ## The filter -/

/-- Settles O35: an accepted word that is not CLEAR's keeps every 1 bit, and a waiting edge keeps the table. -/
theorem tableBitsNeverClear : Obligations.TableBitsNeverClear := by
  intro s t hs h hreset hclear hbroken w
  obtain ⟨he, -⟩ | ⟨c, he, hc⟩ | ⟨he, -⟩ | ⟨-, rfl⟩ := step_cases h
  · exact absurd he hreset
  · obtain ⟨i, hd, hi⟩ | ⟨k, -, rfl⟩ := execCmd_cases hc
    · have hne : i ≠ .clear := by
        rintro rfl
        exact hclear (he.trans (congrArg EdgeEvent.accept (decode_eq_ok_iff.1 hd).symm))
      exact arrRead_and_arrRead (fun _ => exec_tableBit (s := acceptEdge s) hs hne hi) w
    · exact BitVec.and_self
  · exact absurd he hbroken
  · exact BitVec.and_self

/-- Settles O36: the two bits that ADD set are still 1 at TEST; and the hash with the two halves of an added one
exchanged has the same two bits. -/
theorem noFalseNegatives : Obligations.NoFalseNegatives := by
  refine ⟨fun s u is hs his hu hh => ?_, [0x00010000], 0x00000001, by decide, fun s => ?_⟩
  · rw [execAll_cons (exec_add s)] at hu
    obtain ⟨t, ht, -, hbits⟩ := execAll_tableBit (s := { s with table := dualSet s.table s.h }) (dualSet_wf hs s.h) his
    obtain rfl : t = u := Host.Outcome.next.inj (ht.symm.trans hu)
    obtain ⟨hlo, hhi⟩ := dualTest_eq_true.1 (dualTest_dualSet hs s.h)
    have htest : dualTest t.table s.h = true := dualTest_eq_true.2 ⟨hbits _ hlo, hbits _ hhi⟩
    rw [exec_test, hh, htest]
  · obtain ⟨v, hadds⟩ := execAll_clear_adds [0x00010000] [.hload 0x00000001, .test] s
    refine ⟨_, hadds, ?_⟩
    dsimp only [List.foldl]
    decide

/-- Settles O38: ADD sets two bits, which are one when the two indices are equal. -/
theorem fillPerAdd : Obligations.FillPerAdd := by
  intro s hs
  refine ⟨_, _, _, exec_popcnt s, exec_add s, exec_popcnt _, ?_⟩
  simp only [count_toNat]
  refine ⟨le_tableOnes_dualSet hs s.h, tableOnes_dualSet_le hs s.h, fun hzero => ?_⟩
  rw [table_ext hs zeroTable_wf hzero, tableOnes_dualSet_zeroTable, idxLo_eq, idxHi_eq]

/-- Settles O39: no bit goes from 1 to 0. -/
theorem fillNeverDecreases : Obligations.FillNeverDecreases := by
  intro s u is hs his hu
  obtain ⟨t, ht, -, hbits⟩ := execAll_tableBit hs his
  obtain rfl : t = u := Host.Outcome.next.inj (ht.symm.trans hu)
  refine ⟨_, _, exec_popcnt s, exec_popcnt t, ?_⟩
  simp only [count_toNat]
  exact tableOnes_mono hbits

/-- Settles O40: the first ADD sets a bit of the empty table, and each ADD sets at most two. -/
theorem fillOfManyAdds : Obligations.FillOfManyAdds := by
  intro s vs hvs
  obtain ⟨v, hadds⟩ := execAll_clear_adds vs [.popcnt] s
  refine ⟨_, hadds, ?_⟩
  simp only [count_toNat]
  cases vs with
  | nil => exact absurd rfl hvs
  | cons x xs =>
    have hfirst : 1 ≤ tableOnes (dualSet zeroTable x) := by
      rw [tableOnes_dualSet_zeroTable]
      split_ifs <;> decide
    obtain ⟨hlow, -⟩ := tableOnes_foldl_dualSet xs (dualSet_wf zeroTable_wf x)
    obtain ⟨-, hhigh⟩ := tableOnes_foldl_dualSet (x :: xs) zeroTable_wf
    exact ⟨hfirst.trans hlow, by simpa using hhigh⟩

end Sys2Proof.Machine

/-! ## NOP, SCLR and illegal words -/

namespace Sys2Proof

/-- Why a word is illegal, by its opcode alone (30_encoding.md R66, 60_exceptions.md R141). -/
theorem cause_of_decode {c : Cmd} {k : IllegalCause} (h : decode c = .error k) :
    k = if 0xA ≤ (opField c).toNat then .undefinedOpcode else .reservedBit := by
  by_cases hop : 0xA ≤ (opField c).toNat
  · rw [if_pos hop]
    exact Except.error.inj (h.symm.trans (decode_of_undefined hop))
  · rw [if_neg hop]
    obtain ⟨o, ho⟩ := exists_code_eq (not_le.1 hop)
    rw [decode_of_opField ho.symm] at h
    split at h
    · cases h
    · exact (Except.error.inj h).symm

end Sys2Proof

namespace Sys2Proof.Machine

/-- The code recorded for an illegal word (42_system.md R132). -/
theorem causeCode_of_decode {c : Cmd} {k : IllegalCause} (h : decode c = .error k) :
    causeCode k = if 0xA ≤ (opField c).toNat then 0b01 else 0b10 := by
  rw [cause_of_decode h, apply_ite causeCode]
  rfl

/-- Settles O13: the word is NOP's own, and every bit of its argument is reserved. -/
theorem nopChangesNothing : Obligations.NopChangesNothing :=
  fun s => ⟨exec_nop s, execCmd_encode .nop s, fun _ harg => execCmd_of_arg_ne_zero (o := .nop) rfl harg s⟩

/-- Settles O25: the word is SCLR's own, and with a nonzero argument it raises like any illegal word. -/
theorem sclrClearsTheStatus : Obligations.SclrClearsTheStatus :=
  fun s => ⟨exec_sclr s, execCmd_encode .sclr s,
    fun _ harg => ⟨execCmd_of_arg_ne_zero (o := .sclr) rfl harg s, raiseIllegal_ill .reservedBit s⟩⟩

/-- Settles O26: the word raises, and the code of its cause is that of its opcode. -/
theorem illegalWordRaises : Obligations.IllegalWordRaises := by
  intro c k s h
  have hcode : causeCode k = if 0xA ≤ (c.extractLsb' 32 4).toNat then 0b01 else 0b10 := causeCode_of_decode h
  rw [execCmd_of_illegal h, raiseIllegal, hcode]
  cases s.ill <;> rfl

end Sys2Proof.Machine

/-! ## No legal command fails -/

namespace Sys2Proof.Machine

/-- A command raises nothing and records no cause; SCLR, the one that writes these fields, clears both. -/
theorem exec_raises_nothing {i : Instr} {s t : State} (h : exec i s = .next t) :
    (t.ill = true → s.ill = true) ∧ (t.icause ≠ 0 → t.icause = s.icause) := by
  obtain ⟨hill, hicause⟩ | rfl := exec_status h
  · exact ⟨fun ht => hill ▸ ht, fun _ => hicause⟩
  · cases h
    simp

/-- Settles O28: the word of a command always has a next state, and is executed as that command. -/
theorem noLegalCommandFails : Obligations.NoLegalCommandFails := by
  intro i s
  obtain ⟨t, hword⟩ := execCmd_next (encode i) s
  have hexec : exec i s = .next t := execCmd_encode i s ▸ hword
  exact ⟨t, hexec, hword, exec_raises_nothing hexec⟩

end Sys2Proof.Machine

/-! ## Reset and its sweep -/

namespace Sys2Proof.Machine

/-- Settles O11: reset is tested before anything else at the edge. -/
theorem resetEdgeTakesPriority : Obligations.ResetEdgeTakesPriority := by
  intro s hrst
  have he : edgeEvent s = .reset := edgeEvent_reset hrst
  exact ⟨fun c => by simp [he], resetEdge s, step_of_reset he, rfl, rfl, rfl, rfl, rfl, rfl, rfl, rfl⟩

/-- An edge at which the sweep goes on, or reset is asserted again, leaves the block at its reset values and busy, with
the presented word held (70_reset_and_hazards.md R160, R162). -/
theorem step_of_sweep {s : State} {e : Edge} {rest : List Edge} (h : s.edges = e :: rest)
    (hreset : SameBlock s State.reset) (hbusy : s.busy = true) (hsweep : e.rst = true ∨ e.done = false)
    (hhold : ∀ c, s.held = some c → edgeWord e = some c) :
    ∃ t, step s = .next t ∧ SameBlock t State.reset ∧ t.busy = true ∧ t.held = edgeWord e ∧ t.edges = rest := by
  have hpins : pins s = e := pins_of_edges h
  cases hrst : e.rst with
  | true =>
    have he : edgeEvent s = .reset := edgeEvent_reset (by rw [hpins, hrst])
    exact ⟨resetEdge s, step_of_reset he, (sameBlock_reset_resetEdge s).symm, rfl, by simp [presented, hpins],
      by simp [h]⟩
  | false =>
    have he : edgeEvent s = .wait := edgeEvent_wait_of_edges h hrst (fun _ => hbusy) hhold
    have hdone : e.done = false := by simpa [hrst] using hsweep
    exact ⟨waitEdge s, step_of_wait he, (sameBlock_waitEdge s).symm.trans hreset, by simp [hbusy, hpins, hdone],
      by simp [presented, hpins], by simp [h]⟩

/-- A sweep of any length, then the edge at which it is complete (70_reset_and_hazards.md R162, R163). -/
theorem run_sweep (sweep : List Edge) {s : State} {last : Edge} {rest : List Edge}
    (h : s.edges = sweep ++ last :: rest) (hreset : SameBlock s State.reset) (hbusy : s.busy = true)
    (hsweep : ∀ x ∈ sweep, x.rst = true ∨ x.done = false) (hrst : last.rst = false) (hdone : last.done = true)
    (hhold : HoldsThrough s.held (sweep ++ [last])) :
    ∃ t, Host.Core.run core (sweep.length + 1) s = .next t ∧ SameBlock t State.reset ∧ t.busy = false ∧
      t.held = edgeWord last ∧ t.edges = rest := by
  induction sweep generalizing s with
  | nil =>
    obtain ⟨hnow, -⟩ := hhold
    have hpins : pins s = last := pins_of_edges h
    have he : edgeEvent s = .wait := edgeEvent_wait_of_edges h hrst (fun _ => hbusy) hnow
    exact ⟨waitEdge s, (core_run_one s).trans (step_of_wait he), (sameBlock_waitEdge s).symm.trans hreset,
      by simp [hpins, hdone], by simp [presented, hpins], by simp [h]⟩
  | cons x xs ih =>
    obtain ⟨hnow, hlater⟩ := hhold
    obtain ⟨hx, hxs⟩ := List.forall_mem_cons.1 hsweep
    obtain ⟨s', hstep, hreset', hbusy', hheld', hedges'⟩ := step_of_sweep h hreset hbusy hx hnow
    obtain ⟨t, hrun, hend⟩ := ih hedges' hreset' hbusy' hxs (hheld' ▸ hlater)
    exact ⟨t, (core_run_succ _ hstep).trans hrun, hend⟩

/-- Settles O12: the reset edge starts the sweep from the reset values, whatever was in progress. -/
theorem resetAndSweepEndInS0 : Obligations.ResetAndSweepEndInS0 := by
  intro s e last sweep rest h hreset hsweep hrst hdone hhold
  have hpins : pins s = e := pins_of_edges h
  have he : edgeEvent s = .reset := edgeEvent_reset (by rw [hpins, hreset])
  have hheld : (resetEdge s).held = edgeWord e := by simp [presented, hpins]
  obtain ⟨t, hrun, hend⟩ := run_sweep sweep (s := resetEdge s) (rest := rest) (by simp [h])
    (sameBlock_reset_resetEdge s).symm rfl hsweep hrst hdone (hheld ▸ hhold)
  exact ⟨t, (core_run_succ _ (step_of_reset he)).trans hrun, hend⟩

end Sys2Proof.Machine
